-- ==== Sys2Proof/Word.lean ====
section
/-! DEFINITION. The word types of the host port (R4 WORD, R50): one width, 32 bits; content bytes of 8 bits (R13). -/

namespace Sys2Proof

/-- A command word or a host-visible register value: 32 bits, bit 31 the most significant (R6, R32, R50). -/
abbrev Word := BitVec 32

/-- One entry of the content buffer (R13). -/
abbrev Byte := BitVec 8

end Sys2Proof
end

