-- ==== Sys2Proof/Syntax.lean ====
section
/-! DEFINITION. The command set, version 1: thirteen commands (R52), one constructor per row of spec/opcode_table.json. -/

namespace Sys2Proof

/-- A decoded command (R52, R59). The character code stays 24 bits because CPUSH slices it; the coordinates are unsigned
numbers (R53), bounded by their 5-bit fields in WellFormed.lean. -/
inductive Instr where
  | nop
  | clr
  | pstruct
  | pformat
  | encode
  | ecccat
  | place
  | mask
  | gen
  | cstart
  | cpush (cp : BitVec 24)
  | cnull
  | qrsv (r c : Nat)
  deriving DecidableEq, Repr

end Sys2Proof
end

