-- ==== Sys2Proof/WellFormed.lean ====
section
/-! DEFINITION. Which instruction terms a command word can carry: QRSV's coordinates are unsigned 5-bit fields (R51, R53).
Values 21..31 are well formed; it is execution that refuses them (R53, R72). -/

namespace Sys2Proof

/-- The instruction fits its format's fields (R51). -/
def Instr.wellFormed : Instr → Bool
  | .qrsv r c => decide (r < 32) && decide (c < 32)
  | .nop | .clr | .pstruct | .pformat | .encode | .ecccat | .place | .mask | .gen
  | .cstart | .cpush _ | .cnull => true

end Sys2Proof
end

