-- ==== Sys2Proof/Decode.lean ====
section
/-! DEFINITION. The decoder, a total function from 32-bit words (R59), and the encoder written from the formats of R51
and the opcode map of R52. A command is one word with no byte order of its own (R36, R50). -/

namespace Sys2Proof

/-- Why a word is illegal by encoding: the three cases of R54, in its order. -/
inductive DecodeError where
  /-- R54(a): W[31:24] is none of the thirteen op values. -/
  | undefinedOp
  /-- R54(b): a format Z word with W[23:0] not zero. -/
  | operandNotZero
  /-- R54(c): a format Q word with W[23:13] or W[7:5] not zero. -/
  | reservedNotZero
  deriving DecidableEq, Repr

/-- `op = W[31:24]` (R51). -/
def opField (w : Word) : BitVec 8 := w.extractLsb' 24 8

/-- A format Z word: W[23:0] must be zero (R51, R54(b)). -/
def decodeZ (w : Word) (i : Instr) : Except DecodeError Instr :=
  if w.extractLsb' 0 24 = 0#24 then .ok i else .error .operandNotZero

/-- A format C word: `cp = W[23:0]`, every value legal (R51, R53). -/
def decodeC (w : Word) : Except DecodeError Instr :=
  .ok (.cpush (w.extractLsb' 0 24))

/-- A format Q word: `r = W[12:8]`, `c = W[4:0]`, unsigned; W[23:13] and W[7:5] must be zero (R51, R53, R54(c)). -/
def decodeQ (w : Word) : Except DecodeError Instr :=
  if w.extractLsb' 13 11 = 0#11 ∧ w.extractLsb' 5 3 = 0#3 then
    .ok (.qrsv (w.extractLsb' 8 5).toNat (w.extractLsb' 0 5).toNat)
  else .error .reservedNotZero

/-- The decoder (R52, R54, R59). -/
def decode (w : Word) : Except DecodeError Instr :=
  match (opField w).toNat with
  | 0x00 => decodeZ w .nop
  | 0x01 => decodeZ w .clr
  | 0x02 => decodeZ w .pstruct
  | 0x03 => decodeZ w .pformat
  | 0x04 => decodeZ w .encode
  | 0x05 => decodeZ w .ecccat
  | 0x06 => decodeZ w .place
  | 0x07 => decodeZ w .mask
  | 0x08 => decodeZ w .gen
  | 0x10 => decodeZ w .cstart
  | 0x11 => decodeC w
  | 0x12 => decodeZ w .cnull
  | 0x20 => decodeQ w
  | _ => .error .undefinedOp

/-- The op value of a command (R52). -/
def Instr.op : Instr → BitVec 8
  | .nop => 0x00#8
  | .clr => 0x01#8
  | .pstruct => 0x02#8
  | .pformat => 0x03#8
  | .encode => 0x04#8
  | .ecccat => 0x05#8
  | .place => 0x06#8
  | .mask => 0x07#8
  | .gen => 0x08#8
  | .cstart => 0x10#8
  | .cpush _ => 0x11#8
  | .cnull => 0x12#8
  | .qrsv _ _ => 0x20#8

/-- Bits [23:0] of a command's word, by its format (R51). -/
def Instr.operandBits : Instr → BitVec 24
  | .cpush cp => cp
  | .qrsv r c => 0#11 ++ (BitVec.ofNat 5 r ++ (0#3 ++ BitVec.ofNat 5 c))
  | .nop | .clr | .pstruct | .pformat | .encode | .ecccat | .place | .mask | .gen
  | .cstart | .cnull => 0#24

/-- The word of a well-formed instruction (R51, R52). -/
def encode (i : Instr) : Word := i.op ++ i.operandBits

/-- One row of the match/mask table of R59. -/
structure MatchRow where
  mnemonic : String
  wanted : Word
  mask : Word
  deriving DecidableEq, Repr

/-- The match/mask form of the decoder, as R59 tabulates it. `decode` does not use it: it is read from R51 to R54
instead, so that the two can be compared. -/
def matchTable : List MatchRow :=
  [ ⟨"NOP", 0x00000000, 0xFFFFFFFF⟩, ⟨"CLR", 0x01000000, 0xFFFFFFFF⟩,
    ⟨"PSTRUCT", 0x02000000, 0xFFFFFFFF⟩, ⟨"PFORMAT", 0x03000000, 0xFFFFFFFF⟩,
    ⟨"ENCODE", 0x04000000, 0xFFFFFFFF⟩, ⟨"ECCCAT", 0x05000000, 0xFFFFFFFF⟩,
    ⟨"PLACE", 0x06000000, 0xFFFFFFFF⟩, ⟨"MASK", 0x07000000, 0xFFFFFFFF⟩,
    ⟨"GEN", 0x08000000, 0xFFFFFFFF⟩, ⟨"CSTART", 0x10000000, 0xFFFFFFFF⟩,
    ⟨"CPUSH", 0x11000000, 0xFF000000⟩, ⟨"CNULL", 0x12000000, 0xFFFFFFFF⟩,
    ⟨"QRSV", 0x20000000, 0xFFFFE0E0⟩ ]

/-- The mnemonic of R52. -/
def Instr.mnemonic : Instr → String
  | .nop => "NOP"
  | .clr => "CLR"
  | .pstruct => "PSTRUCT"
  | .pformat => "PFORMAT"
  | .encode => "ENCODE"
  | .ecccat => "ECCCAT"
  | .place => "PLACE"
  | .mask => "MASK"
  | .gen => "GEN"
  | .cstart => "CSTART"
  | .cpush _ => "CPUSH"
  | .cnull => "CNULL"
  | .qrsv _ _ => "QRSV"

/-- The instruction the decoder reads from a word of spec/opcode_table.json: its low `nbits` bits are those of `w`, the
bits above are zero, and a command is one 32-bit word (R50, R56). -/
def decodeTableWord (nbits w : Nat) : Option Instr :=
  if nbits ≤ 32 then (decode (BitVec.ofNat 32 (w % 2 ^ nbits))).toOption else none

end Sys2Proof
end

