-- ==== Sys2Proof/Config.lean ====
section
/-! DEFINITION. What an implementation fixes (R4, column "model argument") and the one value the spec leaves without
meaning. The fixed parameters of R4 (N = 21, 152 data bits, 56 stand-in bits, 208 stream bits, 17 characters) are the
widths of the types in Machine/State.lean. -/

namespace Sys2Proof

/-- The two model arguments of R4. Their defaults are `Machine.config` in Machine/Ops.lean. -/
structure Config where
  /-- FORMAT_WORD, a 15-bit literal the source does not give (R20, R85, D17, U2). -/
  formatWord : BitVec 15
  /-- ECC_FN, a function of the 152 data bits alone that returns 56 bits (R105, D19, U1). -/
  eccFn : Vector Bool 152 → Vector Bool 56

/-- FREE VALUE (log 6): whether the terminator is 4 bits (true) or 0 bits (false) when the stream already ends on a
byte boundary after the payload. R99 and U4 say the words could mean either and that nothing may rely on the value. No
reachable state asks for it. -/
opaque Config.terminatorOnBoundary : Bool

end Sys2Proof
end

