-- ==== Sys2Proof/Machine/State.lean ====
section
/-! DEFINITION. The state of one engine, the tuple of R10, with the two sides of the host port beside it; the reasons a
step can stop; the state after reset (R150). -/

namespace Sys2Proof.Machine

/-- The module grid: 21 rows of 21 cells, true = dark, row 0 at the top and column 0 at the left (R11, R31). -/
abbrev Grid := Vector (Vector Bool 21) 21

/-- The stage sequencer STG, the nearest thing to a program counter; eight names for the values 0..7 (R16). -/
inductive Stage where
  | empty
  | alloc
  | struct
  | format
  | encoded
  | concat
  | placed
  | done
  deriving DecidableEq, Repr

/-- The error mask: ERR[0] = INV, ERR[1] = CAP, ERR[2] = ILL, each sticky (R17). -/
structure ErrMask where
  inv : Bool
  cap : Bool
  ill : Bool
  deriving DecidableEq, Repr

/-- The three synchronous exceptions, in the order of their cause codes 1, 2, 3 (R130). -/
inductive Cause where
  | invalidInput
  | capacityExceeded
  | illegalCommand
  deriving DecidableEq, Repr

/-- Where and how wide a host access is: a register number, a width in bits, and whether it is naturally aligned. The
port carries aligned 32-bit accesses only (R32, R39, R40); the other shapes are here so that they can be refused (R41). -/
structure Access where
  reg : Nat
  bits : Nat := 32
  aligned : Bool := true
  deriving DecidableEq, Repr

/-- What the outside can do to the engine: a host read, a host write (R5, R33), or the platform's reset input (R150). -/
inductive PortEvent where
  | read (a : Access)
  | write (a : Access) (w : Word)
  | reset
  deriving DecidableEq, Repr

/-- The engine's state (R10) in its first nine fields, and the model's own two lists for the host port. -/
structure State where
  /-- G, the module grid (R11). -/
  g : Grid
  /-- BS, the bit stream, index 0 appended first (R12). -/
  bs : Vector Bool 208
  /-- BSLEN, legal values 0..208 (R12). -/
  bslen : Fin 209
  /-- CBUF, the low bytes of the first 17 characters (R13). -/
  cbuf : Vector Byte 17
  /-- CLEN, 0..17 exactly and 18 for "18 or more" (R14). -/
  clen : Fin 19
  /-- CVALID, false when the content is null (R15). -/
  cvalid : Bool
  /-- STG (R16). -/
  stg : Stage
  /-- ERR (R17). -/
  err : ErrMask
  /-- RES, the answer of the last successful QRSV (R18). -/
  res : Bool
  /-- The model's own (log 1): outside accesses not yet served, oldest first (R43). -/
  pending : List PortEvent
  /-- The model's own (log 2): the words that served reads returned to the host, oldest first. -/
  answers : List Word
  deriving DecidableEq, Repr

/-- Why the machine stops with a fault. -/
inductive Fault where
  /-- Raised by ENCODE (and by nothing else) when its appends would pass stream index 207, a use of BsAppend to which
  R7 gives no meaning. No state that satisfies the invariant of R25 gets here (log 7). Safe: the model stops. -/
  | streamOverrun
  deriving DecidableEq, Repr

/-- Why the machine refuses. -/
inductive Refusal where
  /-- Answered by an arm of `exec` for an instruction without a meaning. No arm answers it. Safe. -/
  | notModelled (mnemonic : String)
  /-- Answered by the host port for a read of an unmapped register number (R41, U12). Safe. -/
  | unmappedRead
  /-- Answered by the host port for a write to any register number but 0x00 (R41, U12). Safe. -/
  | writeOutsideCmd
  /-- Answered by the host port for an access that is not 32 bits wide (R40, R41, U12). Safe. -/
  | accessWidth
  /-- Answered by the host port for an access that is not naturally aligned (R39, R41). Safe. -/
  | accessMisaligned
  deriving DecidableEq, Repr

/-- The state after reset (R150): every piece at the value of R11 to R18, nothing left unspecified. The port lists
start empty: the engine waits for the first CMD write (R151). -/
def State.reset : State where
  g := Vector.replicate 21 (Vector.replicate 21 false)
  bs := Vector.replicate 208 false
  bslen := 0
  cbuf := Vector.replicate 17 0#8
  clen := 0
  cvalid := false
  stg := .empty
  err := ⟨false, false, false⟩
  res := false
  pending := []
  answers := []

end Sys2Proof.Machine
end

