-- ==== Sys2Proof/Machine/Ops.lean ====
section
/-! DEFINITION. The shared operations: cells of the grid and of the stream (R7), taking an exception with its abort
(R132 to R135), the `require` of a step command, and how the pieces of a command follow one another. -/

namespace Sys2Proof.Machine

/-- The parameters' default values (R4). FORMAT_WORD is open in the source; 0x77C4 is this spec's default (R20, D17,
log 4). ECC_FN is the placeholder 1,0,1,0,... that R105 says this hardware implements (D19, log 5). -/
def config : Config where
  formatWord := 0x77C4#15
  eccFn := fun _ => Vector.ofFn fun j => j.val % 2 == 0

/-! ## Cells -/

/-- `G[r][c]` (R7); false outside 0..20, where no rule reads. -/
def Grid.get (g : Grid) (r c : Nat) : Bool :=
  if h : r < 21 ∧ c < 21 then (g[r]'h.1)[c]'h.2 else false

/-- `G[r][c] <- b` (R7); nothing outside 0..20, where no rule writes. -/
def Grid.set (g : Grid) (r c : Nat) (b : Bool) : Grid :=
  if h : r < 21 ∧ c < 21 then Vector.set g r (Vector.set (g[r]'h.1) c b h.2) h.1 else g

/-- The all-light grid (R75). -/
def Grid.light : Grid := Vector.replicate 21 (Vector.replicate 21 false)

/-- One cell write: row, column, value. -/
abbrev CellWrite := Nat × Nat × Bool

/-- Cell writes performed in order; a later write of a cell wins. -/
def Grid.writeAll (g : Grid) (ws : List CellWrite) : Grid :=
  ws.foldl (fun g w => g.set w.1 w.2.1 w.2.2) g

/-- `for r in 0..20: for c in 0..20`. -/
def allCells : List (Nat × Nat) :=
  (List.range 21).flatMap fun r => (List.range 21).map fun c => (r, c)

/-- `BS[i]` (R7); false outside 0..207, where no rule reads. -/
def streamBit (bs : Vector Bool 208) (i : Nat) : Bool :=
  if h : i < 208 then bs[i] else false

/-- The empty stream's cells (R75). -/
def zeroStream : Vector Bool 208 := Vector.replicate 208 false

/-! ## Exceptions -/

/-- `ERR[k] <- 1` for the bit of a cause; the other bits stay (R17, R130). -/
def ErrMask.record (e : ErrMask) : Cause → ErrMask
  | .invalidInput => { e with inv := true }
  | .capacityExceeded => { e with cap := true }
  | .illegalCommand => { e with ill := true }

/-- `ERR <- 0b000`: the only way back from an error, done by CLR, by GEN at its start and by reset (R17, R139). There is
no return instruction. -/
def ErrMask.none : ErrMask := ⟨false, false, false⟩

/-- The abort of a failed run (R135). -/
def abort (s : State) : State :=
  { s with g := Grid.light, bs := zeroStream, bslen := 0, stg := .empty }

/-- `raise E`: the sticky bit, then the abort for the two content failures (R132, R133) and nothing else for
IllegalCommand (R134). Control goes nowhere (R137). -/
def raise (c : Cause) (s : State) : State :=
  let s := { s with err := s.err.record c }
  match c with
  | .invalidInput => abort s
  | .capacityExceeded => abort s
  | .illegalCommand => s

/-! ## The pieces of a command -/

/-- How the pseudocode of a command rule ends. -/
inductive Run where
  /-- Ran to its end. -/
  | completed (s : State)
  /-- A `raise` ended the command in this state (R7, R137). -/
  | raised (s : State)
  /-- The spec gives the command no meaning here. -/
  | stopped (f : Fault)
  deriving DecidableEq, Repr

/-- One piece after another; a raise ends the whole command (R124: "or raise -> abort, GEN ends"). -/
def Run.andThen (x : Run) (f : State → Run) : Run :=
  match x with
  | .completed s => f s
  | .raised s => .raised s
  | .stopped f => .stopped f

/-- The outcome of a command: a raise is a next state like any other (R137). -/
def Run.outcome : Run → Host.Outcome State Fault Refusal
  | .completed s => .next s
  | .raised s => .next s
  | .stopped f => .fault f

/-- `require STG == k else raise IllegalCommand` (R7, R126). -/
def requireStage (k : Stage) (s : State) (body : State → Run) : Run :=
  if s.stg = k then body s else .raised (raise .illegalCommand s)

end Sys2Proof.Machine
end

