-- ==== Sys2Proof/Machine/Operands.lean ====
section
/-! DEFINITION. The operand forms: the character code of format C and the coordinates of format Q (R53), and the
numbering of STG. There are no register operands and no addressing modes (R53). -/

namespace Sys2Proof.Machine

/-- `cp[7:0]`, all that CPUSH keeps of a character code (R8(a), R95). -/
def lowByte (cp : BitVec 24) : Byte := cp.extractLsb' 0 8

/-- `r <= 20 and c <= 20`: the coordinates name a cell (R53, R72). -/
def onGrid (r c : Nat) : Bool := decide (r ≤ 20) && decide (c ≤ 20)

/-- The 3-bit value of STG (R16). -/
def Stage.number : Stage → BitVec 3
  | .empty => 0
  | .alloc => 1
  | .struct => 2
  | .format => 3
  | .encoded => 4
  | .concat => 5
  | .placed => 6
  | .done => 7

end Sys2Proof.Machine
end

