-- ==== Sys2Proof/Machine/Flags.lean ====
section
/-! DEFINITION. The flags and the registers that show them: DONE (R19), ERR's numbering (R17), STATUS, RES and FMT (R24),
the grid rows (R38) and the stream words (R37). There are no condition codes (R19). -/

namespace Sys2Proof.Machine

/-- DONE = 1 if and only if STG = 7 (R19). -/
def doneFlag (s : State) : Bool := s.stg == .done

/-- ERR as its 3-bit value: INV is bit 0, CAP bit 1, ILL bit 2 (R17). -/
def ErrMask.bits (e : ErrMask) : BitVec 3 :=
  BitVec.ofBool e.ill ++ (BitVec.ofBool e.cap ++ BitVec.ofBool e.inv)

/-- STATUS, from bit 31 down: zero [31:24], BSLEN [23:16], zero [15:13], CLEN [12:8], ILL CAP INV [7:5], CVALID [4],
DONE [3], STG [2:0] (R24). -/
def statusWord (s : State) : Word :=
  0#8 ++ (BitVec.ofNat 8 s.bslen.val ++ (0#3 ++ (BitVec.ofNat 5 s.clen.val ++
    (s.err.bits ++ (BitVec.ofBool s.cvalid ++ (BitVec.ofBool (doneFlag s) ++ s.stg.number))))))

/-- The RES register: RES in bit 0, bits [31:1] zero (R24). -/
def resWord (s : State) : Word := 0#31 ++ BitVec.ofBool s.res

/-- The FMT register: FORMAT_WORD in [14:0], bits [31:15] zero (R20, R24). -/
def fmtWord (cfg : Config) : Word := 0#17 ++ cfg.formatWord

/-- A 32-bit register from its bits, bit 0 the least significant (R6). -/
def wordOfBits (f : Nat → Bool) : Word := BitVec.ofFnLE fun k : Fin 32 => f k.val

/-- GROWr: bit c is G[r][c] for c in 0..20, bits [31:21] zero (R22, R38). -/
def growWord (g : Grid) (r : Nat) : Word := wordOfBits fun c => g.get r c

/-- BSWk: stream bit i is bit 31 - (i mod 32) of word i div 32; bits with no stream index are zero (R23, R37). -/
def bswWord (bs : Vector Bool 208) (k : Nat) : Word :=
  wordOfBits fun b => streamBit bs (32 * k + (31 - b))

end Sys2Proof.Machine
end

