-- ==== Sys2Proof/Machine/Classifier.lean ====
section
/-! DEFINITION. The reserved-region classifier (R65 to R71) and the command that exposes it, QRSV (R72). The predicate
reads no state; QRSV, PLACE and MASK share this one definition (R71(e)). -/

namespace Sys2Proof.Machine

/-- The three 7x7 squares at the grid's corners (R65). -/
def isFinder (r c : Nat) : Bool :=
  (decide (r ≤ 6) && decide (c ≤ 6)) ||
  (decide (r ≤ 6) && decide (14 ≤ c)) ||
  (decide (14 ≤ r) && decide (c ≤ 6))

/-- The row and the column that touch each finder's two inward sides, corner cell included (R66, D14). -/
def isSeparator (r c : Nat) : Bool :=
  (r == 7 && decide (c ≤ 7)) || (c == 7 && decide (r ≤ 7)) ||
  (r == 7 && decide (13 ≤ c)) || (c == 13 && decide (r ≤ 7)) ||
  (r == 13 && decide (c ≤ 7)) || (c == 7 && decide (13 ≤ r))

/-- Row 6 and column 6, indices 8 to 12 (R67). -/
def isTiming (r c : Nat) : Bool :=
  (r == 6 && (decide (8 ≤ c) && decide (c ≤ 12))) ||
  (c == 6 && (decide (8 ≤ r) && decide (r ≤ 12)))

/-- The one cell (13, 8) (R68). -/
def isDarkModule (r c : Nat) : Bool := r == 13 && c == 8

/-- Row 8, columns 0..8, and column 8, rows 7..14 (R69). -/
def isFormat (r c : Nat) : Bool :=
  (r == 8 && decide (c ≤ 8)) || (c == 8 && (decide (7 ≤ r) && decide (r ≤ 14)))

/-- The predicate: the union of the five classes (R70, D13). -/
def isReserved (r c : Nat) : Bool :=
  isFinder r c || isSeparator r c || isTiming r c || isDarkModule r c || isFormat r c

/-- QRSV's body (R72). -/
def qrsvRun (r c : Nat) (s : State) : Run :=
  if onGrid r c then .completed { s with res := isReserved r c }
  else .raised (raise .illegalCommand s)

/-- QRSV r, c (R72). -/
def execQrsv (r c : Nat) (s : State) : Host.Outcome State Fault Refusal := (qrsvRun r c s).outcome

end Sys2Proof.Machine
end

