-- ==== Sys2Proof/Machine/Structural.lean ====
section
/-! DEFINITION. Grid allocation, CLR (R75), and the structural pattern placer, PSTRUCT (R76 to R80). -/

namespace Sys2Proof.Machine

/-- CLR's body: a fresh grid and stream, no errors, STG = 1 (R75). -/
def clrRun (s : State) : Run :=
  .completed { s with g := Grid.light, bs := zeroStream, bslen := 0, err := ErrMask.none, stg := .alloc }

/-- The finder template, cell (i, j) of the 7x7 square: border ring, light ring, 3x3 block (R76). -/
def finder (i j : Nat) : Bool :=
  i == 0 || i == 6 || j == 0 || j == 6 ||
  (decide (2 ≤ i) && decide (i ≤ 4) && decide (2 ≤ j) && decide (j ≤ 4))

/-- The finder writes at one anchor (R80, first loop). -/
def finderWrites (r0 c0 : Nat) : List CellWrite :=
  (List.range 7).flatMap fun i => (List.range 7).map fun j => (r0 + i, c0 + j, finder i j)

/-- The separator writes: every separator cell is forced light (R77). -/
def separatorWrites : List CellWrite :=
  (allCells.filter fun rc => isSeparator rc.1 rc.2).map fun rc => (rc.1, rc.2, false)

/-- The timing writes: alternating, starting dark, on row 6 and column 6 (R78). -/
def timingWrites : List CellWrite :=
  (List.range 5).flatMap fun k => [(6, 8 + k, k % 2 == 0), (8 + k, 6, k % 2 == 0)]

/-- The dark module write (R79). -/
def darkModuleWrite : CellWrite := (13, 8, true)

/-- All of PSTRUCT's writes in the order of R80, anchors as §4.1 gives them. -/
def structWrites : List CellWrite :=
  finderWrites 0 0 ++ finderWrites 0 14 ++ finderWrites 14 0 ++ separatorWrites ++ timingWrites ++
    [darkModuleWrite]

/-- PSTRUCT's body (R80). -/
def pstructRun (s : State) : Run :=
  requireStage .alloc s fun s => .completed { s with g := s.g.writeAll structWrites, stg := .struct }

/-- CLR (R75). -/
def execClr (s : State) : Host.Outcome State Fault Refusal := (clrRun s).outcome

/-- PSTRUCT (R80). -/
def execPstruct (s : State) : Host.Outcome State Fault Refusal := (pstructRun s).outcome

end Sys2Proof.Machine
end

