-- ==== Sys2Proof/Machine/Format.lean ====
section
/-! DEFINITION. The format-information writer, PFORMAT (R85 to R88). -/

namespace Sys2Proof.Machine

/-- FMT_MAP: the 17 cell writes in order, as (row, column, bit index of FORMAT_WORD) (R86, D16). Cell (8, 8) stands
twice; the later write wins. -/
def fmtMap : List (Nat × Nat × Nat) :=
  ((List.range 7).map fun c => (8, c, 14 - c)) ++
  ((List.range' 7 2).map fun c => (8, c, 15 - c)) ++
  ((List.range' 7 7).map fun r => (r, 8, 21 - r)) ++
  [(14, 8, 8)]

/-- PFORMAT's writes for a format word (R87): `f(k) = FORMAT_WORD[k]`. -/
def formatWrites (w : BitVec 15) : List CellWrite :=
  fmtMap.map fun m => (m.1, m.2.1, w.getLsbD m.2.2)

/-- PFORMAT's body (R87). -/
def pformatRun (cfg : Config) (s : State) : Run :=
  requireStage .struct s fun s =>
    .completed { s with g := s.g.writeAll (formatWrites cfg.formatWord), stg := .format }

/-- PFORMAT (R87). -/
def execPformat (s : State) : Host.Outcome State Fault Refusal := (pformatRun config s).outcome

end Sys2Proof.Machine
end

