-- ==== Sys2Proof/Machine/Encoder.lean ====
section
/-! DEFINITION. The content hand-over, CSTART, CPUSH, CNULL (R92 to R95), and the byte encoder, ENCODE (R96 to R103). -/

namespace Sys2Proof.Machine

/-! ## Content -/

/-- The empty content buffer. -/
def zeroContent : Vector Byte 17 := Vector.replicate 17 0#8

/-- CSTART's body: content := empty string (R93). -/
def cstartRun (s : State) : Run :=
  .completed { s with cvalid := true, clen := 0, cbuf := zeroContent }

/-- CNULL's body: content := null (R94). -/
def cnullRun (s : State) : Run :=
  .completed { s with cvalid := false, clen := 0, cbuf := zeroContent }

/-- CPUSH's body: one character more; the 18th and later are counted, not stored (R95). -/
def cpushRun (cp : BitVec 24) (s : State) : Run :=
  if s.cvalid then
    if h : s.clen.val ≤ 16 then
      .completed { s with cbuf := s.cbuf.set s.clen.val (lowByte cp) (by omega),
                          clen := ⟨s.clen.val + 1, by omega⟩ }
    else .completed { s with clen := 18 }
  else .raised (raise .illegalCommand s)

/-- `CBUF[i]` (R7); zero outside 0..16, where no rule reads. -/
def contentByte (cbuf : Vector Byte 17) (i : Nat) : Byte :=
  if h : i < 17 then cbuf[i] else 0#8

/-! ## The stream being appended to -/

/-- BS and BSLEN while ENCODE runs; the length is a plain number here, checked when ENCODE stores it. -/
structure Stream where
  bits : Vector Bool 208
  len : Nat
  deriving DecidableEq, Repr

/-- `BS[BSLEN] <- b; BSLEN <- BSLEN + 1` (R7). -/
def Stream.pushBit (st : Stream) (b : Bool) : Stream :=
  ⟨if h : st.len < 208 then st.bits.set st.len b h else st.bits, st.len + 1⟩

/-- Bits appended in order. -/
def Stream.pushBits (st : Stream) (l : List Bool) : Stream := l.foldl Stream.pushBit st

/-- The bits of a value, most significant first (R36). -/
def msbFirst {n : Nat} (v : BitVec n) : List Bool :=
  (List.range n).map fun k => v.getLsbD (n - 1 - k)

/-- `BsAppend(v, n)`: most significant bit first (R7). -/
def bsAppend {n : Nat} (v : BitVec n) (st : Stream) : Stream := st.pushBits (msbFirst v)

/-! ## The six steps of §4.3 -/

/-- The header: mode indicator 0100, then the character count as 8 bits (R96). -/
def appendHeader (clen : Nat) (st : Stream) : Stream :=
  bsAppend (BitVec.ofNat 8 clen) (bsAppend 0b0100#4 st)

/-- The payload: one byte per character, first character first (R97). -/
def appendPayload (cbuf : Vector Byte 17) (clen : Nat) (st : Stream) : Stream :=
  (List.range clen).foldl (fun st i => bsAppend (contentByte cbuf i) st) st

/-- `12 + 8*CLEN > 152` (R98). -/
def overCapacity (clen : Nat) : Bool := decide (12 + 8 * clen > 152)

/-- The terminator's length, `min(4, 8 - (BSLEN mod 8))` (R99). On a byte boundary the spec gives no value (U4): the
free value of Config decides between 0 and 4 there (log 6). -/
def terminatorLength (len : Nat) : Nat :=
  if len % 8 = 0 then (if Config.terminatorOnBoundary then 4 else 0) else min 4 (8 - len % 8)

/-- The terminator: zero bits (R99). -/
def appendTerminator (st : Stream) : Stream :=
  st.pushBits (List.replicate (terminatorLength st.len) false)

/-- `while BSLEN mod 8 != 0: BsAppend(0, 1)` (R100); seven rounds always reach a byte boundary. -/
def appendAlignment : Nat → Stream → Stream
  | 0, st => st
  | fuel + 1, st => if st.len % 8 = 0 then st else appendAlignment fuel (st.pushBit false)

/-- The k-th pad byte: 0xEC for even k, 0x11 for odd k (R101, D20). -/
def padByte (k : Nat) : Byte := if k % 2 = 0 then 0xEC#8 else 0x11#8

/-- `while BSLEN < 152: BsAppend(pad byte k, 8); k <- k + 1` (R101); nineteen rounds always reach 152. -/
def appendPads : Nat → Nat → Stream → Stream
  | 0, _, st => st
  | fuel + 1, k, st =>
    if st.len < 152 then appendPads fuel (k + 1) (bsAppend (padByte k) st) else st

/-- What ENCODE appends, in the order of R102. -/
def encodeStream (cbuf : Vector Byte 17) (clen : Nat) (st : Stream) : Stream :=
  appendPads 19 0 (appendAlignment 7 (appendTerminator (appendPayload cbuf clen (appendHeader clen st))))

/-- Stores the appended stream and sets STG = 4. A stream past index 207 has no meaning (R7, log 7). -/
def storeStream (st : Stream) (s : State) : Run :=
  if h : st.len < 209 then .completed { s with bs := st.bits, bslen := ⟨st.len, h⟩, stg := .encoded }
  else .stopped .streamOverrun

/-- ENCODE's body (R102): the sequencer, then InvalidInput, then CapacityExceeded (R136), then the six steps. -/
def encodeRun (s : State) : Run :=
  requireStage .format s fun s =>
    if s.cvalid then
      if overCapacity s.clen.val then .raised (raise .capacityExceeded s)
      else storeStream (encodeStream s.cbuf s.clen.val ⟨s.bs, s.bslen.val⟩) s
    else .raised (raise .invalidInput s)

/-! ## The commands -/

/-- CSTART (R93). -/
def execCstart (s : State) : Host.Outcome State Fault Refusal := (cstartRun s).outcome

/-- CPUSH cp (R95). -/
def execCpush (cp : BitVec 24) (s : State) : Host.Outcome State Fault Refusal := (cpushRun cp s).outcome

/-- CNULL (R94). -/
def execCnull (s : State) : Host.Outcome State Fault Refusal := (cnullRun s).outcome

/-- ENCODE (R102). -/
def execEncode (s : State) : Host.Outcome State Fault Refusal := (encodeRun s).outcome

end Sys2Proof.Machine
end

