-- ==== Sys2Proof/Machine/EccConcat.lean ====
section
/-! DEFINITION. The error-correction stand-in and the bit-stream concatenator, ECCCAT (R105 to R107). -/

namespace Sys2Proof.Machine

/-- The data bits `BS[0..151]`, ECC_FN's argument (R105). -/
def dataBits (bs : Vector Bool 208) : Vector Bool 152 := Vector.ofFn fun i => streamBit bs i.val

/-- The combined stream: the data bits, then the stand-in bits, nothing between them (R106). -/
def concatStream (eccFn : Vector Bool 152 → Vector Bool 56) (bs : Vector Bool 208) : Vector Bool 208 :=
  let e := eccFn (dataBits bs)
  Vector.ofFn fun i => if h : i.val < 152 then bs[i.val] else e[i.val - 152]

/-- ECCCAT's body (R107). -/
def ecccatRun (cfg : Config) (s : State) : Run :=
  requireStage .encoded s fun s =>
    .completed { s with bs := concatStream cfg.eccFn s.bs, bslen := 208, stg := .concat }

/-- ECCCAT (R107). -/
def execEcccat (s : State) : Host.Outcome State Fault Refusal := (ecccatRun config s).outcome

end Sys2Proof.Machine
end

