-- ==== Sys2Proof/Machine/Placement.lean ====
section
/-! DEFINITION. The zigzag fill placement unit, PLACE (R111 to R115). -/

namespace Sys2Proof.Machine

/-- The column pairs (right, left) of the traversal (R111): `while col > 0`, with column index 6 lowered to 5 before
the pair is formed (D18). Each round lowers `col` by at least 2. -/
def columnPairs : Nat → Nat → List (Nat × Nat)
  | 0, _ => []
  | fuel + 1, col =>
    if col = 0 then []
    else
      let col := if col = 6 then 5 else col
      (col, col - 1) :: columnPairs fuel (col - 2)

/-- PAIR_SEQ, from the rightmost column (R111). -/
def pairSeq : List (Nat × Nat) := columnPairs 21 20

/-- The cells of one pair: rows 20 down to 0, right column before left (R112). -/
def pairCells (p : Nat × Nat) : List (Nat × Nat) :=
  (List.range 21).flatMap fun k => [(20 - k, p.1), (20 - k, p.2)]

/-- Every cell the unit visits, in order (R111, R112). -/
def visitOrder : List (Nat × Nat) := pairSeq.flatMap pairCells

/-- One visited cell: a reserved cell is skipped and consumes no bit (R112); a free one takes `BS[i] if i < BSLEN
else 0` and the read index advances (R113). -/
def placeCell (bs : Vector Bool 208) (bslen : Nat) (acc : Grid × Nat) (rc : Nat × Nat) : Grid × Nat :=
  if isReserved rc.1 rc.2 then acc
  else (acc.1.set rc.1 rc.2 (if acc.2 < bslen then streamBit bs acc.2 else false), acc.2 + 1)

/-- The whole fill, read index 0 at the start (R113, R114). -/
def placeGrid (bs : Vector Bool 208) (bslen : Nat) (g : Grid) : Grid :=
  (visitOrder.foldl (placeCell bs bslen) (g, 0)).1

/-- PLACE's body (R114). -/
def placeRun (s : State) : Run :=
  requireStage .concat s fun s => .completed { s with g := placeGrid s.bs s.bslen.val s.g, stg := .placed }

/-- PLACE (R114). -/
def execPlace (s : State) : Host.Outcome State Fault Refusal := (placeRun s).outcome

/-- PLACE_ORDER: the free cells in the order visited; entry i receives stream index i (R115). -/
def placeOrder : List (Nat × Nat) := visitOrder.filter fun rc => !isReserved rc.1 rc.2

end Sys2Proof.Machine
end

