-- ==== Sys2Proof/Machine/Masking.lean ====
section
/-! DEFINITION. The XOR masking unit, MASK (R118 to R120). -/

namespace Sys2Proof.Machine

/-- The mask bit of a cell: 1 when row + col is even (R118). -/
def maskBit (r c : Nat) : Bool := (r + c) % 2 == 0

/-- One cell of the masking loop: reserved cells are left untouched (R118, R119). -/
def maskCell (g : Grid) (rc : Nat × Nat) : Grid :=
  if isReserved rc.1 rc.2 then g else g.set rc.1 rc.2 (g.get rc.1 rc.2 ^^ maskBit rc.1 rc.2)

/-- The masking loop over all cells (R119). -/
def maskGrid (g : Grid) : Grid := allCells.foldl maskCell g

/-- MASK's body (R119). -/
def maskRun (s : State) : Run :=
  requireStage .placed s fun s => .completed { s with g := maskGrid s.g, stg := .done }

/-- MASK (R119). -/
def execMask (s : State) : Host.Outcome State Fault Refusal := (maskRun s).outcome

end Sys2Proof.Machine
end

