-- ==== Sys2Proof/Machine/Orchestration.lean ====
section
/-! DEFINITION. The orchestrator, GEN (R124), and NOP (R123). -/

namespace Sys2Proof.Machine

/-- NOP's body: nothing (R123). -/
def nopRun (s : State) : Run := .completed s

/-- GEN's body: the seven step commands one after the other inside one atomic command, each exactly as its own rule
says; a raise in the ENCODE part ends it (R124). -/
def genRun (cfg : Config) (s : State) : Run :=
  ((((((clrRun s).andThen pstructRun).andThen (pformatRun cfg)).andThen encodeRun).andThen
    (ecccatRun cfg)).andThen placeRun).andThen maskRun

/-- NOP (R123). -/
def execNop (s : State) : Host.Outcome State Fault Refusal := (nopRun s).outcome

/-- GEN (R124). -/
def execGen (s : State) : Host.Outcome State Fault Refusal := (genRun config s).outcome

end Sys2Proof.Machine
end

