-- ==== Sys2Proof/Machine/Dispatch.lean ====
section
/-! DEFINITION. One arm per command of R52, each a direct call of that command's meaning. -/

namespace Sys2Proof.Machine

def exec (i : Instr) (s : State) : Host.Outcome State Fault Refusal :=
  match i with
  -- pipeline commands, op 0x00 to 0x08
  | .nop => Sys2Proof.Machine.execNop s
  | .clr => Sys2Proof.Machine.execClr s
  | .pstruct => Sys2Proof.Machine.execPstruct s
  | .pformat => Sys2Proof.Machine.execPformat s
  | .encode => Sys2Proof.Machine.execEncode s
  | .ecccat => Sys2Proof.Machine.execEcccat s
  | .place => Sys2Proof.Machine.execPlace s
  | .mask => Sys2Proof.Machine.execMask s
  | .gen => Sys2Proof.Machine.execGen s
  -- content commands, op 0x10 to 0x12
  | .cstart => Sys2Proof.Machine.execCstart s
  | .cpush cp => Sys2Proof.Machine.execCpush cp s
  | .cnull => Sys2Proof.Machine.execCnull s
  -- query, op 0x20
  | .qrsv r c => Sys2Proof.Machine.execQrsv r c s

end Sys2Proof.Machine
end

