-- ==== Sys2Proof/Machine/HostPort.lean ====
section
/-! DEFINITION. The host port: the register map (R24, R33), the limits of the contract (R41), the execution of a command
word (R44, R59) and the reset input (R150). -/

namespace Sys2Proof.Machine

/-- The value of register number n, `x[n]` (R7), by the map of R33; none where the number is unmapped. -/
def readRegister (cfg : Config) (s : State) (n : Nat) : Option Word :=
  if n = 0x00 then some 0#32
  else if n = 0x01 then some (statusWord s)
  else if n = 0x02 then some (resWord s)
  else if n = 0x03 then some (fmtWord cfg)
  else if 0x20 ≤ n ∧ n ≤ 0x34 then some (growWord s.g (n - 0x20))
  else if 0x40 ≤ n ∧ n ≤ 0x46 then some (bswWord s.bs (n - 0x40))
  else none

/-- The first way, if any, in which an access is not one aligned 32-bit word (R39, R40, R41). -/
def accessProblem (a : Access) : Option Refusal :=
  if a.bits ≠ 32 then some .accessWidth
  else if a.aligned then none
  else some .accessMisaligned

/-- A CMD write: decode the word, then the whole command (R44, R59). An illegal word raises IllegalCommand before any
other test (R54, R136). -/
def runWord (w : Word) (s : State) : Host.Outcome State Fault Refusal :=
  match decode w with
  | .ok i => exec i s
  | .error _ => .next (raise .illegalCommand s)

/-- A host read: the register's value goes to the host and the engine's state does not change (R40). -/
def serveRead (a : Access) (s : State) : Host.Outcome State Fault Refusal :=
  match accessProblem a with
  | some r => .refused r
  | none =>
    match readRegister config s a.reg with
    | some v => .next { s with answers := s.answers ++ [v] }
    | none => .refused .unmappedRead

/-- A host write: only CMD, number 0x00, may be written (R33, R41). -/
def serveWrite (a : Access) (w : Word) (s : State) : Host.Outcome State Fault Refusal :=
  match accessProblem a with
  | some r => .refused r
  | none => if a.reg = 0x00 then runWord w s else .refused .writeOutsideCmd

/-- The reset input: every piece of the engine's state to its reset value (R150). What the host has still to issue and
what it has read stay (log 3). -/
def resetEngine (s : State) : State :=
  { State.reset with pending := s.pending, answers := s.answers }

/-- One event from outside, served whole before the next (R43, R44). -/
def serve (e : PortEvent) (s : State) : Host.Outcome State Fault Refusal :=
  match e with
  | .read a => serveRead a s
  | .write a w => serveWrite a w s
  | .reset => .next (resetEngine s)

/-- The CMD write that carries a word: register 0x00, one aligned 32-bit access (R33, R50). -/
def cmdWrite (w : Word) : PortEvent := .write { reg := 0x00 } w

/-- A read of register n. -/
def regRead (n : Nat) : PortEvent := .read { reg := n }

end Sys2Proof.Machine
end

