-- ==== Sys2Proof/Machine/Assembler.lean ====
section
/-! DEFINITION. The command sequences of R57 and R58: how a command is spelled, how text is assembled, what the two
pseudo-instructions expand to, and what a sequence of commands does when its words are written to CMD one after the other
(R43, R44). The engine itself keeps no program (R50). -/

namespace Sys2Proof.Machine

/-! ## Sequences -/

/-- `CSTR "text"`: CSTART, then one CPUSH per character code, in order (R58). -/
def cstr (text : List (BitVec 24)) : List Instr := .cstart :: text.map .cpush

/-- `STEPALL`: the step-by-step form of GEN (R58). -/
def stepAll : List Instr := [.clr, .pstruct, .pformat, .encode, .ecccat, .place, .mask]

/-- A sequence of commands from a state, each complete before the next; it ends at the first stop (R43, R44). -/
def runAll : List Instr → State → Host.Outcome State Fault Refusal
  | [], s => .next s
  | i :: rest, s =>
    match exec i s with
    | .next t => runAll rest t
    | .fault f => .fault f
    | .refused r => .refused r

/-- The host's CMD writes for a sequence of commands (R33, R50). -/
def cmdWrites (is : List Instr) : List PortEvent := is.map fun i => cmdWrite (encode i)

/-! ## Text (R57) -/

/-- A command's line in the syntax of R57, numbers in decimal. -/
def commandText (i : Instr) : String :=
  match i with
  | .cpush cp => i.mnemonic ++ " " ++ toString cp.toNat
  | .qrsv r c => i.mnemonic ++ " " ++ toString r ++ ", " ++ toString c
  | .nop | .clr | .pstruct | .pformat | .encode | .ecccat | .place | .mask | .gen | .cstart | .cnull => i.mnemonic

/-- The digits of R57's two number forms, in order of value. -/
def digitOrder : List Char := "0123456789ABCDEF".toList

/-- A digit's value is its place in that order; small letters count as capitals (log 17). -/
def digitValue (c : Char) : Option Nat := digitOrder.idxOf? c.toUpper

/-- The digits of a number in a base, most significant first, after `acc`. -/
def digitsValue (base : Nat) : Nat → List Char → Option Nat
  | acc, [] => some acc
  | acc, c :: l =>
    match digitValue c with
    | some d => if d < base then digitsValue base (base * acc + d) l else none
    | none => none

/-- An operand: a decimal number, a `0x` hexadecimal number, or a character literal (R57). A literal's code is the
character's Unicode code point (DESIGN CHOICE beyond ASCII, log 17); `'''` is the literal of the apostrophe (DESIGN CHOICE,
log 17). -/
def operandValue : List Char → Option Nat
  | [] => none
  | ['\'', c, '\''] => some c.toNat
  | ['0', 'x'] => none
  | '0' :: 'x' :: l => digitsValue 16 0 l
  | l => digitsValue 10 0 l

/-- A line without its comment: `;` starts one (R57). A character literal, `'''` among them, is passed over whole, and so
is a text between double quotes (`inText`), so that a `;` in either starts none (DESIGN CHOICE, log 17). -/
def dropComment (inText : Bool) : List Char → List Char
  | [] => []
  | '\'' :: c :: '\'' :: l =>
    if inText then '\'' :: dropComment true (c :: '\'' :: l) else '\'' :: c :: '\'' :: dropComment false l
  | c :: l =>
    if c = '"' then c :: dropComment (!inText) l
    else if c = ';' ∧ inText = false then []
    else c :: dropComment inText l

/-- Without the spaces at both ends. -/
def trimSpaces (l : List Char) : List Char :=
  ((l.dropWhile (· == ' ')).reverse.dropWhile (· == ' ')).reverse

/-- What stands before the first `stop`, and what stands after it. -/
def cutAt (stop : Char) (l : List Char) : List Char × List Char :=
  (l.takeWhile (· != stop), (l.dropWhile (· != stop)).drop 1)

/-- The commands without operands, by R57's list of forms. -/
def plainCommands : List Instr := [.nop, .clr, .pstruct, .pformat, .encode, .ecccat, .place, .mask, .gen, .cstart, .cnull]

/-- One line: a command, a pseudo-instruction with its expansion (R58), or nothing. An operand must fit its field (R51). The
spec leaves the cutting of a text into characters to the host (CHAR_SPLIT, D27, U17): CSTR gives one CPUSH per Unicode code
point here (DESIGN CHOICE, log 17). -/
def assembleLine (line : List Char) : Option (List Instr) :=
  let l := trimSpaces (dropComment false line)
  let (name, rest) := cutAt ' ' l
  if l = [] then some []
  else if l = "STEPALL".toList then some stepAll
  else if name = "CPUSH".toList then
    match operandValue (trimSpaces rest) with
    | some cp => if cp < 2 ^ 24 then some [.cpush (BitVec.ofNat 24 cp)] else none
    | none => none
  else if name = "QRSV".toList then
    match operandValue (trimSpaces (cutAt ',' rest).1), operandValue (trimSpaces (cutAt ',' rest).2) with
    | some r, some c => if r < 32 ∧ c < 32 then some [.qrsv r c] else none
    | _, _ => none
  else if name = "CSTR".toList then
    let body := (trimSpaces rest).drop 1
    if (trimSpaces rest).head? = some '"' ∧ body.getLast? = some '"' ∧ '"' ∉ body.dropLast then
      some (cstr (body.dropLast.map fun c => BitVec.ofNat 24 c.toNat))
    else none
  else (plainCommands.find? fun i => i.mnemonic.toList = l).map fun i => [i]

/-- Lines, one command per line (R57); none if any line is not in the syntax. -/
def assembleLines : List (List Char) → Option (List Instr)
  | [] => some []
  | l :: rest =>
    match assembleLine l, assembleLines rest with
    | some is, some js => some (is ++ js)
    | _, _ => none

/-- A text cut at its line ends. -/
def linesOf : List Char → List (List Char)
  | [] => [[]]
  | c :: l =>
    if c = '\n' then [] :: linesOf l
    else
      match linesOf l with
      | first :: rest => (c :: first) :: rest
      | [] => [[c]]

/-- The command words of a text (R57, R58). -/
def assemble (text : String) : Option (List Word) := (assembleLines (linesOf text.toList)).map (·.map encode)

end Sys2Proof.Machine
end

