-- ==== Sys2Proof/Machine/Reference.lean ====
section
/-! DEFINITION. What the spec tabulates or gives in closed form, written down from its tables and not from the machine's
loops: the reserved map (R70), the structural grid S1 (R80), the format cells (R88), the placement order (R115), the
encoded data (R103) and the final grid (R120). Statements compare the machine with these; no meaning uses them. -/

namespace Sys2Proof.Machine

/-- Bit c of row r in a table of row numbers. -/
def tableBit (rows : List Nat) (r c : Nat) : Bool := (rows.getD r 0).testBit c

/-- The reserved map of R70, one 21-bit number per row. -/
def reservedRows : List Nat :=
  [0x1FE0FF, 0x1FE0FF, 0x1FE0FF, 0x1FE0FF, 0x1FE0FF, 0x1FE0FF, 0x1FFFFF, 0x1FE1FF, 0x0001FF, 0x000140,
   0x000140, 0x000140, 0x000140, 0x0001FF, 0x0001FF, 0x0000FF, 0x0000FF, 0x0000FF, 0x0000FF, 0x0000FF,
   0x0000FF]

/-- isReserved as R70 tabulates it. -/
def reservedCell (r c : Nat) : Bool := tableBit reservedRows r c

/-- S1, the grid after CLR and PSTRUCT, as R80 tabulates it. -/
def s1Rows : List Nat :=
  [0x1FC07F, 0x104041, 0x17405D, 0x17405D, 0x17405D, 0x104041, 0x1FD57F, 0x000000, 0x000040, 0x000000,
   0x000040, 0x000000, 0x000040, 0x000100, 0x00007F, 0x000041, 0x00005D, 0x00005D, 0x00005D, 0x000041,
   0x00007F]

/-- A cell of S1 (R80). -/
def s1Cell (r c : Nat) : Bool := tableBit s1Rows r c

/-- The bit index of FORMAT_WORD that a format cell holds after PFORMAT, by R88(a): G[8][0..5] = f14..f9, G[8][6] = f8,
G[8][7] = f8, G[8][8] = f13, G[7][8] = f14, G[9..12][8] = f12..f9, G[13][8] = f8, G[14][8] = f8. -/
def formatBitAt (r c : Nat) : Option Nat :=
  if r = 8 then
    if c ≤ 5 then some (14 - c) else if c = 6 ∨ c = 7 then some 8 else if c = 8 then some 13 else none
  else if c = 8 then
    if r = 7 then some 14 else if 9 ≤ r ∧ r ≤ 12 then some (21 - r) else if r = 13 ∨ r = 14 then some 8 else none
  else none

/-- A cell of S2, the grid after PFORMAT: S1 with the format cells of R88(a). -/
def s2Cell (w : BitVec 15) (r c : Nat) : Bool :=
  match formatBitAt r c with
  | some k => w.getLsbD k
  | none => s1Cell r c

/-- PLACE_ORDER, indices 0 to 103, as R115 lists it. -/
def placeTableA : List (Nat × Nat) :=
  [(20, 20), (20, 19), (19, 20), (19, 19), (18, 20), (18, 19), (17, 20), (17, 19)] ++
  [(16, 20), (16, 19), (15, 20), (15, 19), (14, 20), (14, 19), (13, 20), (13, 19)] ++
  [(12, 20), (12, 19), (11, 20), (11, 19), (10, 20), (10, 19), (9, 20), (9, 19)] ++
  [(8, 20), (8, 19), (20, 18), (20, 17), (19, 18), (19, 17), (18, 18), (18, 17)] ++
  [(17, 18), (17, 17), (16, 18), (16, 17), (15, 18), (15, 17), (14, 18), (14, 17)] ++
  [(13, 18), (13, 17), (12, 18), (12, 17), (11, 18), (11, 17), (10, 18), (10, 17)] ++
  [(9, 18), (9, 17), (8, 18), (8, 17), (20, 16), (20, 15), (19, 16), (19, 15)] ++
  [(18, 16), (18, 15), (17, 16), (17, 15), (16, 16), (16, 15), (15, 16), (15, 15)] ++
  [(14, 16), (14, 15), (13, 16), (13, 15), (12, 16), (12, 15), (11, 16), (11, 15)] ++
  [(10, 16), (10, 15), (9, 16), (9, 15), (8, 16), (8, 15), (20, 14), (20, 13)] ++
  [(19, 14), (19, 13), (18, 14), (18, 13), (17, 14), (17, 13), (16, 14), (16, 13)] ++
  [(15, 14), (15, 13), (14, 14), (14, 13), (13, 14), (13, 13), (12, 14), (12, 13)] ++
  [(11, 14), (11, 13), (10, 14), (10, 13), (9, 14), (9, 13), (8, 14), (8, 13)]

/-- PLACE_ORDER, indices 104 to 223, as R115 lists it. -/
def placeTableB : List (Nat × Nat) :=
  [(20, 12), (20, 11), (19, 12), (19, 11), (18, 12), (18, 11), (17, 12), (17, 11)] ++
  [(16, 12), (16, 11), (15, 12), (15, 11), (14, 12), (14, 11), (13, 12), (13, 11)] ++
  [(12, 12), (12, 11), (11, 12), (11, 11), (10, 12), (10, 11), (9, 12), (9, 11)] ++
  [(8, 12), (8, 11), (7, 12), (7, 11), (5, 12), (5, 11), (4, 12), (4, 11)] ++
  [(3, 12), (3, 11), (2, 12), (2, 11), (1, 12), (1, 11), (0, 12), (0, 11)] ++
  [(20, 10), (20, 9), (19, 10), (19, 9), (18, 10), (18, 9), (17, 10), (17, 9)] ++
  [(16, 10), (16, 9), (15, 10), (15, 9), (14, 10), (14, 9), (13, 10), (13, 9)] ++
  [(12, 10), (12, 9), (11, 10), (11, 9), (10, 10), (10, 9), (9, 10), (9, 9)] ++
  [(8, 10), (8, 9), (7, 10), (7, 9), (5, 10), (5, 9), (4, 10), (4, 9)] ++
  [(3, 10), (3, 9), (2, 10), (2, 9), (1, 10), (1, 9), (0, 10), (0, 9)] ++
  [(20, 8), (19, 8), (18, 8), (17, 8), (16, 8), (15, 8), (12, 7), (11, 7)] ++
  [(10, 7), (9, 7), (5, 8), (4, 8), (3, 8), (2, 8), (1, 8), (0, 8)] ++
  [(12, 5), (12, 4), (11, 5), (11, 4), (10, 5), (10, 4), (9, 5), (9, 4)] ++
  [(12, 3), (12, 2), (11, 3), (11, 2), (10, 3), (10, 2), (9, 3), (9, 2)] ++
  [(12, 1), (12, 0), (11, 1), (11, 0), (10, 1), (10, 0), (9, 1), (9, 0)]

/-- PLACE_ORDER (R115): entry i is the free cell that receives stream index i. -/
def placeTable : List (Nat × Nat) := placeTableA ++ placeTableB

/-- A number as `width` bits, most significant first (R36). -/
def numberBits (width n : Nat) : List Bool := (List.range width).map fun k => n.testBit (width - 1 - k)

/-- R103, the 152 data bits for n characters with bytes b: `0100`, n, the bytes, `0000`, 17 - n pad bytes. -/
def encodedBits (n : Nat) (b : Nat → Byte) : List Bool :=
  numberBits 4 0b0100 ++ numberBits 8 n ++
    ((List.range n).flatMap fun i => numberBits 8 (b i).toNat) ++
    numberBits 4 0 ++
    ((List.range (17 - n)).flatMap fun k => numberBits 8 (if k % 2 = 0 then 0xEC else 0x11))

/-- BS[0..151] is the closed form of R103 for n characters with bytes b. -/
def HoldsData (bs : Vector Bool 208) (n : Nat) (b : Nat → Byte) : Prop :=
  ∀ i, i < 152 → (encodedBits n b)[i]? = some (streamBit bs i)

/-- BS[152..207] is ECC_FN of BS[0..151] (R105, R107). -/
def HoldsEcc (eccFn : Vector Bool 152 → Vector Bool 56) (bs : Vector Bool 208) : Prop :=
  ∀ j (h : j < 56), streamBit bs (152 + j) = (eccFn (dataBits bs))[j]

/-- The stream bit of the free cell with placement index i: `BS[i] if i < 208 else 0` (R113, R120). -/
def placedBit (bs : Vector Bool 208) (i : Nat) : Bool := if i < 208 then streamBit bs i else false

end Sys2Proof.Machine
end

