-- ==== Sys2Proof/Safety.lean ====
section
/-! DEFINITION. What a safe run is: the invariants of R25 with the field invariants of R12, R13, R15, in the terms the
statements use; which grids count as results (R125); what a wrong use of a command is (R131). -/

namespace Sys2Proof.Machine

/-- R12: `BS[i]` for i >= BSLEN is 0. -/
def StreamWf (s : State) : Prop := ∀ i, i < 208 → s.bslen.val ≤ i → streamBit s.bs i = false

/-- R15: CVALID = 0 implies CLEN = 0; and entries past CLEN are 0, which follows from R93 to R95 (log 14). -/
def ContentWf (s : State) : Prop :=
  (s.cvalid = false → s.clen = 0) ∧ ∀ i, i < 17 → s.clen.val ≤ i → contentByte s.cbuf i = 0#8

/-- G is S2 for a format word (R25, R88). -/
def HoldsS2 (w : BitVec 15) (g : Grid) : Prop := ∀ r c, r < 21 → c < 21 → g.get r c = s2Cell w r c

/-- G holds S2 on reserved cells (R25 rows 6 and 7). -/
def HoldsReserved (w : BitVec 15) (g : Grid) : Prop :=
  ∀ r c, r < 21 → c < 21 → reservedCell r c = true → g.get r c = s2Cell w r c

/-- The complete stream of a run: the data of some content of at most 17 characters, then its stand-in (R25 rows 5 to
7, R103, R107). -/
def HoldsStream (cfg : Config) (s : State) : Prop :=
  s.bslen = 208 ∧ (∃ n b, n ≤ 17 ∧ HoldsData s.bs n b) ∧ HoldsEcc cfg.eccFn s.bs

/-- The table of R25, by the value of STG. -/
def StageInv (cfg : Config) (s : State) : Prop :=
  match s.stg with
  | .empty => (∀ r c, s.g.get r c = false) ∧ s.bslen = 0
  | .alloc => (∀ r c, s.g.get r c = false) ∧ s.bslen = 0
  | .struct => (∀ r c, r < 21 → c < 21 → s.g.get r c = s1Cell r c) ∧ s.bslen = 0
  | .format => HoldsS2 cfg.formatWord s.g ∧ s.bslen = 0
  | .encoded => HoldsS2 cfg.formatWord s.g ∧ s.bslen = 152 ∧ ∃ n b, n ≤ 17 ∧ HoldsData s.bs n b
  | .concat => HoldsS2 cfg.formatWord s.g ∧ HoldsStream cfg s
  | .placed => HoldsReserved cfg.formatWord s.g ∧ HoldsStream cfg s ∧
      ∀ i rc, placeTable[i]? = some rc → s.g.get rc.1 rc.2 = placedBit s.bs i
  | .done => HoldsReserved cfg.formatWord s.g ∧ HoldsStream cfg s ∧
      ∀ i rc, placeTable[i]? = some rc →
        s.g.get rc.1 rc.2 = (placedBit s.bs i ^^ ((rc.1 + rc.2) % 2 == 0))

/-- The invariant of the engine (R25 with R12 and R15). -/
def Inv (cfg : Config) (s : State) : Prop := StreamWf s ∧ ContentWf s ∧ StageInv cfg s

/-- A state that some list of outside events leads to from reset. -/
def Reachable (s : State) : Prop :=
  ∃ events k, core.run k { State.reset with pending := events } = .next s

/-- G may be taken as a result only while DONE = 1 (R125, R153). -/
def IsResult (s : State) : Prop := doneFlag s = true

/-- The uses of a command that raise IllegalCommand when it executes, R131(b) to (d). -/
def misused : Instr → State → Bool
  | .pstruct, s => s.stg != .alloc
  | .pformat, s => s.stg != .struct
  | .encode, s => s.stg != .format
  | .ecccat, s => s.stg != .encoded
  | .place, s => s.stg != .concat
  | .mask, s => s.stg != .placed
  | .cpush _, s => !s.cvalid
  | .qrsv r c, _ => decide (20 < r) || decide (20 < c)
  | .nop, _ | .clr, _ | .gen, _ | .cstart, _ | .cnull, _ => false

/-- The content passes the two tests of ENCODE (R98, R102): not null, at most 17 characters. -/
def contentFits (s : State) : Bool := s.cvalid && decide (s.clen.val ≤ 17)

/-- STG after a command, the table of R126. -/
def stageAfter (i : Instr) (s : State) : Stage :=
  if misused i s then s.stg
  else
    match i with
    | .nop | .cstart | .cpush _ | .cnull | .qrsv _ _ => s.stg
    | .clr => .alloc
    | .pstruct => .struct
    | .pformat => .format
    | .encode => if contentFits s then .encoded else .empty
    | .ecccat => .concat
    | .place => .placed
    | .mask => .done
    | .gen => if contentFits s then .done else .empty

end Sys2Proof.Machine
end

