-- ==== Sys2Proof/Certificates/Slice0/Obligations.lean ====
section
/-! DEFINITION. The statements about the model, each from numbered rules of spec/. A statement whose clause rests on the
model's own choice says so and names the log entry. -/

open Sys2Proof Sys2Proof.Machine

/-! ## Encoding (30_encoding) -/

/-- R51 to R53: decoding the word of a well-formed instruction gives it back, every operand at every value its field
admits. -/
def Obligations.DecodeOfEncodeIsTheInstruction : Prop :=
  ∀ i : Instr, i.wellFormed = true → decode (encode i) = .ok i

/-- R51, R54, R59: each legal word has one meaning, and that meaning's word is the word itself. -/
def Obligations.EncodeOfDecodeIsTheWord : Prop :=
  ∀ (w : Word) (i : Instr), decode w = .ok i → encode i = w ∧ i.wellFormed = true

/-- R59: a word decodes to the row whose match it meets under the row's mask; at most one row matches; if none matches
the result is Illegal. -/
def Obligations.DecoderIsTheMatchTable : Prop :=
  ∀ w : Word,
    (∀ row ∈ matchTable, w &&& row.mask = row.wanted ↔ ∃ i, decode w = .ok i ∧ i.mnemonic = row.mnemonic) ∧
    (∀ row ∈ matchTable, ∀ row' ∈ matchTable,
      w &&& row.mask = row.wanted → w &&& row'.mask = row'.wanted → row = row') ∧
    ((∀ row ∈ matchTable, w &&& row.mask ≠ row.wanted) → ∃ e, decode w = .error e)

/-- R54: the three cases in which a word is illegal, and that executing one raises IllegalCommand and changes nothing
else, whatever the sequencer holds. -/
def Obligations.IllegalWordsByEncoding : Prop :=
  ∀ (w : Word) (s : State),
    ((∃ e, decode w = .error e) ↔
      ((w.extractLsb' 24 8).toNat ∉ [0x00, 0x01, 0x02, 0x03, 0x04, 0x05, 0x06, 0x07, 0x08, 0x10, 0x11, 0x12, 0x20]) ∨
      ((w.extractLsb' 24 8).toNat ∈ [0x00, 0x01, 0x02, 0x03, 0x04, 0x05, 0x06, 0x07, 0x08, 0x10, 0x12] ∧
        w.extractLsb' 0 24 ≠ 0#24) ∨
      ((w.extractLsb' 24 8).toNat = 0x20 ∧ (w.extractLsb' 13 11 ≠ 0#11 ∨ w.extractLsb' 5 3 ≠ 0#3))) ∧
    ((∃ e, decode w = .error e) → runWord w s = .next { s with err := { s.err with ill := true } })

/-- R53: cp is W[23:0], all values legal, only cp[7:0] kept; r is W[12:8] and c is W[4:0]; coordinates 21..31 decode but
raise IllegalCommand when they execute. -/
def Obligations.OperandFieldsAndTheirUse : Prop :=
  (∀ cp : BitVec 24, decode (BitVec.ofNat 32 (0x11000000 + cp.toNat)) = .ok (.cpush cp)) ∧
  (∀ (cp cp' : BitVec 24) (s : State), cp.toNat % 256 = cp'.toNat % 256 → exec (.cpush cp) s = exec (.cpush cp') s) ∧
  (∀ r c : Nat, r < 32 → c < 32 → decode (BitVec.ofNat 32 (0x20000000 + 256 * r + c)) = .ok (.qrsv r c)) ∧
  (∀ (r c : Nat) (s : State), r < 32 → c < 32 → 20 < r ∨ 20 < c →
    runWord (BitVec.ofNat 32 (0x20000000 + 256 * r + c)) s = .next { s with err := { s.err with ill := true } })

/-- Words written out from the encodings of R51 and R52, one or more of every family, and illegal ones (the vectors V30
of 95_test_vectors). -/
def Obligations.SampleWordsDecode : Prop :=
  ∀ p ∈ [((0x00000000 : Word), some Instr.nop), (0x01000000, some .clr), (0x02000000, some .pstruct),
      (0x03000000, some .pformat), (0x04000000, some .encode), (0x05000000, some .ecccat), (0x06000000, some .place),
      (0x07000000, some .mask), (0x08000000, some .gen), (0x10000000, some .cstart), (0x11000048, some (.cpush 0x48#24)),
      (0x12000000, some .cnull), (0x20000D08, some (.qrsv 13 8)), (0x20001F1F, some (.qrsv 31 31)), (0x20002000, none),
      (0x20000020, none), (0x01000001, none), (0x09000000, none), (0x21000000, none), (0xFFFFFFFF, none)],
    (decode p.1).toOption = p.2

/-! ## Steps and the host port (20_memory) -/

/-- R44, R59: a CMD write of a word that decodes to an instruction is one step that runs exactly that instruction; what
the step adds is that the write is no longer pending (the model's own list, log 1). -/
def Obligations.StepRunsTheDecodedCommand : Prop :=
  ∀ (s : State) (w : Word) (i : Instr) (rest : List PortEvent),
    s.pending = cmdWrite w :: rest → decode w = .ok i → step s = exec i { s with pending := rest }

/-- R54, R131(a), R134: a CMD write of an illegal word is one step that sets ERR[2] and changes nothing else of the
engine; what the step adds is that the write is no longer pending (the model's own list, log 1). -/
def Obligations.StepOfAnIllegalWord : Prop :=
  ∀ (s : State) (w : Word) (e : DecodeError) (rest : List PortEvent),
    s.pending = cmdWrite w :: rest → decode w = .error e →
      step s = .next { s with pending := rest, err := { s.err with ill := true } }

/-- R151: nothing runs by itself; with no access pending the engine waits (that waiting is a step without effect is the
model's choice, log 1), and a delivered word runs in the very next step. A reset takes nothing from the two host lists but
itself (the lists are log 1 and log 2, that they stay is log 3, all the model's choice). -/
def Obligations.NothingRunsUntilAWordIsWritten : Prop :=
  (∀ s : State, s.pending = [] → step s = .next s) ∧
  (∀ (s : State) (w : Word), step (s.withFetchWord 32 w.toNat) = runWord w s) ∧
  (∀ (s : State) (rest : List PortEvent), s.pending = .reset :: rest →
    step s = .next { State.reset with pending := rest, answers := s.answers })

/-- R40: a read of a mapped register returns the value of the state and changes no state of the engine; what the step adds
is that the read is no longer pending (the model's own list, log 1) and that the value joins the model's own list of
answers (log 2). -/
def Obligations.RegisterReadsHaveNoSideEffect : Prop :=
  ∀ (s : State) (n : Nat) (v : Word) (rest : List PortEvent),
    s.pending = regRead n :: rest → readRegister config s n = some v →
      step s = .next { s with pending := rest, answers := s.answers ++ [v] }

/-- R41, R33: a read of an unmapped number, a write to any number but 0x00, and an access that is not one aligned 32-bit
word are refused; every other access is not. The refusals are the model's (log 8), and so is the list the accesses stand
in (log 1). -/
def Obligations.AccessesOutsideTheContract : Prop :=
  ∀ (s : State) (a : Access) (w : Word) (rest : List PortEvent),
    (s.pending = .read a :: rest →
      ((∃ r, step s = .refused r) ↔
        a.bits ≠ 32 ∨ a.aligned = false ∨
          ¬(a.reg ≤ 0x03 ∨ (0x20 ≤ a.reg ∧ a.reg ≤ 0x34) ∨ (0x40 ≤ a.reg ∧ a.reg ≤ 0x46)))) ∧
    (s.pending = .write a w :: rest →
      ((∃ r, step s = .refused r) ↔ a.bits ≠ 32 ∨ a.aligned = false ∨ a.reg ≠ 0x00))

/-- R24 with R16, R17, R19: the fields of CMD, STATUS, RES and FMT. -/
def Obligations.ControlRegisterFields : Prop :=
  ∀ (cfg : Config) (s : State),
    readRegister cfg s 0x00 = some 0#32 ∧
    (∃ w, readRegister cfg s 0x01 = some w ∧
      (w.extractLsb' 0 3).toNat =
        (match s.stg with
          | .empty => 0 | .alloc => 1 | .struct => 2 | .format => 3
          | .encoded => 4 | .concat => 5 | .placed => 6 | .done => 7) ∧
      w.getLsbD 3 = (s.stg == .done) ∧ w.getLsbD 4 = s.cvalid ∧ w.getLsbD 5 = s.err.inv ∧
      w.getLsbD 6 = s.err.cap ∧ w.getLsbD 7 = s.err.ill ∧ (w.extractLsb' 8 5).toNat = s.clen.val ∧
      w.extractLsb' 13 3 = 0#3 ∧ (w.extractLsb' 16 8).toNat = s.bslen.val ∧ w.extractLsb' 24 8 = 0#8) ∧
    (∃ w, readRegister cfg s 0x02 = some w ∧ w.getLsbD 0 = s.res ∧ w.extractLsb' 1 31 = 0#31) ∧
    (∃ w, readRegister cfg s 0x03 = some w ∧ w.extractLsb' 0 15 = cfg.formatWord ∧ w.extractLsb' 15 17 = 0#17)

/-- R38: bit c of GROWr is G[r][c], bits [31:21] read 0; after PSTRUCT on a light grid GROW0 reads 0x001FC07F. -/
def Obligations.GridRowRegisters : Prop :=
  (∀ (cfg : Config) (s : State) (r : Nat), r < 21 →
    ∃ w, readRegister cfg s (0x20 + r) = some w ∧
      ∀ c, c < 32 → w.getLsbD c = if c < 21 then s.g.get r c else false) ∧
  (∀ (cfg : Config) (s t : State), s.stg = .alloc → (∀ r c, s.g.get r c = false) → exec .pstruct s = .next t →
    readRegister cfg t 0x20 = some 0x001FC07F#32)

/-- R37: stream bit i is bit 31 - (i mod 32) of BSW(i div 32); bits whose stream index is at least BSLEN read 0 (in a
state that meets R12); BSW6[15:0] read 0; with content "HI" BSW0 = 0x40248490. -/
def Obligations.StreamWordRegisters : Prop :=
  (∀ (cfg : Config) (s : State) (i : Nat), i < 208 →
    ∃ w, readRegister cfg s (0x40 + i / 32) = some w ∧ w.getLsbD (31 - i % 32) = streamBit s.bs i ∧
      (StreamWf s → s.bslen.val ≤ i → w.getLsbD (31 - i % 32) = false)) ∧
  (∀ (cfg : Config) (s : State), ∃ w, readRegister cfg s 0x46 = some w ∧ ∀ b, b < 16 → w.getLsbD b = false) ∧
  (∀ (cfg : Config) (s : State) (b : Nat → Byte), b 0 = 0x48#8 → b 1 = 0x49#8 → HoldsData s.bs 2 b →
    readRegister cfg s 0x40 = some 0x40248490#32)

/-- R43, R44: the words of a sequence of commands, written to CMD one after the other, do what the commands do one after
the other. That the writes stand in the list `pending` and that one step serves one of them is the model's choice
(log 1). -/
def Obligations.WrittenSequencesRunInOrder : Prop :=
  ∀ (is : List Instr) (s t : State), (∀ i ∈ is, i.wellFormed = true) → s.pending = [] → runAll is s = .next t →
    core.run is.length { s with pending := cmdWrites is } = .next t

/-- R57, R58: every form of the syntax once, with R57's two examples, and the two pseudo-instructions' expansions. The
texts are ASCII; what the model chose beyond R57 (log 17) is not in it. -/
def Obligations.AssemblerForms : Prop :=
  (∀ i ∈ [Instr.nop, .clr, .pstruct, .pformat, .encode, .ecccat, .place, .mask, .gen, .cstart, .cnull],
    assemble i.mnemonic = some [encode i]) ∧
  assemble "CPUSH 'H'" = some [0x11000048#32] ∧ assemble "CPUSH 72" = some [0x11000048#32] ∧
  assemble "CPUSH 0x48 ; the letter H" = some [0x11000048#32] ∧ assemble "QRSV 13, 8" = some [0x20000D08#32] ∧
  assemble "CSTR \"HI\"\nGEN" = some [0x10000000#32, 0x11000048#32, 0x11000049#32, 0x08000000#32] ∧
  assemble "CSTR \"\"" = some [0x10000000#32] ∧
  assemble "STEPALL" = some [0x01000000#32, 0x02000000#32, 0x03000000#32, 0x04000000#32, 0x05000000#32, 0x06000000#32,
    0x07000000#32]

/-! ## Reset (70_reset_and_hazards) -/

/-- R150: the reset input sets every piece of the engine's state to its reset value, and after it every readable register
reads 0 except FMT. That the event stands in the list `pending` is the model's choice (log 1). -/
def Obligations.ResetSetsEveryPiece : Prop :=
  ∀ (s : State) (rest : List PortEvent), s.pending = .reset :: rest →
    ∃ t, step s = .next t ∧
      (∀ r c, t.g.get r c = false) ∧ (∀ i, streamBit t.bs i = false) ∧ t.bslen = 0 ∧
      (∀ i, contentByte t.cbuf i = 0#8) ∧ t.clen = 0 ∧ t.cvalid = false ∧ t.stg = .empty ∧
      t.err = ⟨false, false, false⟩ ∧ t.res = false ∧
      (∀ n v, readRegister config t n = some v → n ≠ 0x03 → v = 0#32) ∧
      readRegister config t 0x03 = some (0#17 ++ config.formatWord)

/-! ## Exceptions (60_exceptions) -/

/-- R132, R134, R135: what a raise does. -/
def Obligations.RaiseEffects : Prop :=
  ∀ s : State,
    raise .invalidInput s =
      { s with err := { s.err with inv := true }, g := Vector.replicate 21 (Vector.replicate 21 false),
               bs := Vector.replicate 208 false, bslen := 0, stg := .empty } ∧
    raise .capacityExceeded s =
      { s with err := { s.err with cap := true }, g := Vector.replicate 21 (Vector.replicate 21 false),
               bs := Vector.replicate 208 false, bslen := 0, stg := .empty } ∧
    raise .illegalCommand s = { s with err := { s.err with ill := true } }

/-- R131, R134: IllegalCommand is raised in exactly the cases listed: an illegal word, a step command at another STG than
its own, CPUSH on null content, QRSV off the grid; and it changes nothing but ERR[2]. -/
def Obligations.IllegalCommandExactCases : Prop :=
  (∀ (w : Word) (s : State) (e : DecodeError), decode w = .error e →
    runWord w s = .next { s with err := { s.err with ill := true } }) ∧
  (∀ (i : Instr) (s : State), misused i s = true → exec i s = .next { s with err := { s.err with ill := true } }) ∧
  (∀ (i : Instr) (s t : State), misused i s = false → exec i s = .next t → t.err.ill = true → s.err.ill = true)

/-- R130: InvalidInput is raised by ENCODE and GEN only, and only on null content; CapacityExceeded by the same two, and
only on a content of 18 or more characters. -/
def Obligations.ContentExceptionConditions : Prop :=
  ∀ (i : Instr) (s t : State), exec i s = .next t →
    (s.err.inv = false → t.err.inv = true → (i = .encode ∨ i = .gen) ∧ s.cvalid = false) ∧
    (s.err.cap = false → t.err.cap = true → (i = .encode ∨ i = .gen) ∧ s.cvalid = true ∧ s.clen.val = 18)

/-- R17, R139, R140: no command but CLR and GEN clears an ERR bit, CLR clears all three, and GEN leaves only the bit of
its own failure. -/
def Obligations.ErrBitsAreSticky : Prop :=
  (∀ (i : Instr) (s t : State), exec i s = .next t → i ≠ .clr → i ≠ .gen →
    (s.err.inv = true → t.err.inv = true) ∧ (s.err.cap = true → t.err.cap = true) ∧
    (s.err.ill = true → t.err.ill = true)) ∧
  (∀ s t : State, exec .clr s = .next t → t.err = ⟨false, false, false⟩) ∧
  (∀ s t : State, exec .gen s = .next t →
    t.err = ⟨!s.cvalid, s.cvalid && decide (s.clen.val = 18), false⟩)

/-- R17: no command reads ERR; with another error mask a command does the same to everything else. -/
def Obligations.ErrNeverGatesExecution : Prop :=
  ∀ (i : Instr) (s : State) (e : ErrMask),
    (∀ t, exec i s = .next t → ∃ e', exec i { s with err := e } = .next { t with err := e' }) ∧
    (∀ f, exec i s = .fault f → exec i { s with err := e } = .fault f)

/-! ## The sequencer (47_orchestration) -/

/-- R126: STG after every command, the whole transition function, and that a misuse and an illegal word raise
IllegalCommand and leave STG. -/
def Obligations.StageTransitionTable : Prop :=
  (∀ (w : Word) (e : DecodeError) (s : State), decode w = .error e →
    ∃ t, runWord w s = .next t ∧ t.stg = s.stg ∧ t.err.ill = true) ∧
  ∀ (i : Instr) (s t : State), exec i s = .next t →
    t.stg = stageAfter i s ∧ (misused i s = true → t.err.ill = true)

/-- R11 to R15, R18: which command may write which piece of the state. The last clause is about the model's own two lists
(log 1, log 2), which no command touches. -/
def Obligations.WhichCommandWritesWhat : Prop :=
  ∀ (i : Instr) (s t : State), exec i s = .next t →
    (i ≠ .clr → i ≠ .pstruct → i ≠ .pformat → i ≠ .place → i ≠ .mask → i ≠ .gen →
      (i = .encode → s.stg = .format → contentFits s = true) → t.g = s.g) ∧
    (i ≠ .clr → i ≠ .encode → i ≠ .ecccat → i ≠ .gen → t.bs = s.bs ∧ t.bslen = s.bslen) ∧
    (i ≠ .cstart → i ≠ .cnull → (∀ cp, i ≠ .cpush cp) → t.cbuf = s.cbuf ∧ t.clen = s.clen) ∧
    (i ≠ .cstart → i ≠ .cnull → t.cvalid = s.cvalid) ∧
    ((∀ r c, i ≠ .qrsv r c) → t.res = s.res) ∧
    t.pending = s.pending ∧ t.answers = s.answers

/-- R160: every command ends, and none is refused; the one stop is ENCODE at STG = 3 with a stream that is not empty
(which R25 rules out) when its appends do not fit (log 7). -/
def Obligations.EveryCommandEnds : Prop :=
  ∀ (i : Instr) (s : State),
    (∃ t, exec i s = .next t) ∨
    (exec i s = .fault .streamOverrun ∧ i = .encode ∧ s.stg = .format ∧ s.bslen ≠ 0)

/-! ## NOP, CLR, PSTRUCT, PFORMAT -/

/-- R123: the all-zero word is NOP, and NOP changes nothing, from every state. -/
def Obligations.NopChangesNothing : Prop :=
  decode 0x00000000#32 = .ok .nop ∧ ∀ s : State, exec .nop s = .next s

/-- R75: the grid and the stream cleared, ERR cleared, STG = 1, the content and RES kept, from every state. -/
def Obligations.ClrAllocatesAFreshGrid : Prop :=
  decode 0x01000000#32 = .ok .clr ∧
  ∀ s : State, exec .clr s = .next
    { s with g := Vector.replicate 21 (Vector.replicate 21 false), bs := Vector.replicate 208 false, bslen := 0,
             err := ⟨false, false, false⟩, stg := .alloc }

/-- R76 to R80: at STG = 1 PSTRUCT writes the three finders, the separators, the timing patterns and the dark module,
changes no other cell, and from a light grid gives S1; at any other STG it only raises IllegalCommand. -/
def Obligations.PstructWritesTheStructure : Prop :=
  decode 0x02000000#32 = .ok .pstruct ∧
  (∀ s : State, s.stg ≠ .alloc → exec .pstruct s = .next { s with err := { s.err with ill := true } }) ∧
  ∀ s : State, s.stg = .alloc →
    ∃ g' : Grid, exec .pstruct s = .next { s with g := g', stg := .struct } ∧
      (∀ r0 c0 i j, (r0, c0) ∈ [(0, 0), (0, 14), (14, 0)] → i < 7 → j < 7 →
        g'.get (r0 + i) (c0 + j) =
          decide (i = 0 ∨ i = 6 ∨ j = 0 ∨ j = 6 ∨ (2 ≤ i ∧ i ≤ 4 ∧ 2 ≤ j ∧ j ≤ 4))) ∧
      (∀ r c, r < 21 → c < 21 → isSeparator r c = true → g'.get r c = false) ∧
      (∀ k, k < 5 → g'.get 6 (8 + k) = decide (k % 2 = 0) ∧ g'.get (8 + k) 6 = decide (k % 2 = 0)) ∧
      g'.get 13 8 = true ∧
      (∀ r c, r < 21 → c < 21 → isFinder r c = false → isSeparator r c = false → isTiming r c = false →
        isDarkModule r c = false → g'.get r c = s.g.get r c) ∧
      ((∀ r c, s.g.get r c = false) → ∀ r c, r < 21 → c < 21 → g'.get r c = s1Cell r c)

/-- R87, R88(a): at STG = 2 PFORMAT leaves in each format cell the bit of the model's FORMAT_WORD (log 4) that the last
write of the map puts there, and writes no cell outside isFormat; at any other STG it only raises IllegalCommand. -/
def Obligations.PformatWritesTheFormatWord : Prop :=
  decode 0x03000000#32 = .ok .pformat ∧
  (∀ s : State, s.stg ≠ .struct → exec .pformat s = .next { s with err := { s.err with ill := true } }) ∧
  ∀ s : State, s.stg = .struct →
    ∃ g' : Grid, exec .pformat s = .next { s with g := g', stg := .format } ∧
      (∀ c, c ≤ 5 → g'.get 8 c = config.formatWord.getLsbD (14 - c)) ∧
      g'.get 8 6 = config.formatWord.getLsbD 8 ∧ g'.get 8 7 = config.formatWord.getLsbD 8 ∧
      g'.get 8 8 = config.formatWord.getLsbD 13 ∧ g'.get 7 8 = config.formatWord.getLsbD 14 ∧
      (∀ r, 9 ≤ r → r ≤ 12 → g'.get r 8 = config.formatWord.getLsbD (21 - r)) ∧
      g'.get 13 8 = config.formatWord.getLsbD 8 ∧ g'.get 14 8 = config.formatWord.getLsbD 8 ∧
      (∀ r c, r < 21 → c < 21 → isFormat r c = false → g'.get r c = s.g.get r c)

/-- R88(a), (b) for every value of the parameter FORMAT_WORD: the cells after PFORMAT, and that two words that agree on
bits 14..8 give the same state. -/
def Obligations.PformatForAnyFormatWord : Prop :=
  (∀ (cfg : Config) (s : State), s.stg = .struct →
    ∃ g' : Grid, pformatRun cfg s = .completed { s with g := g', stg := .format } ∧
      ∀ r c, r < 21 → c < 21 → g'.get r c =
        match formatBitAt r c with
        | some k => cfg.formatWord.getLsbD k
        | none => s.g.get r c) ∧
  (∀ (cfg cfg' : Config) (s : State), (∀ k, 8 ≤ k → cfg.formatWord.getLsbD k = cfg'.formatWord.getLsbD k) →
    pformatRun cfg s = pformatRun cfg' s)

/-! ## The content and ENCODE (43_encoder) -/

/-- R93, R94: CSTART makes the content the empty string, CNULL makes it null; nothing else changes, from every state. -/
def Obligations.CstartAndCnullReplaceTheContent : Prop :=
  decode 0x10000000#32 = .ok .cstart ∧ decode 0x12000000#32 = .ok .cnull ∧
  ∀ s : State,
    exec .cstart s = .next { s with cvalid := true, clen := 0, cbuf := Vector.replicate 17 0#8 } ∧
    exec .cnull s = .next { s with cvalid := false, clen := 0, cbuf := Vector.replicate 17 0#8 }

/-- R95: with a content that is not null, CPUSH stores cp[7:0] at index CLEN and counts it while CLEN <= 16, and only
saturates CLEN at 18 after that; on null content it raises IllegalCommand. Nothing else changes. -/
def Obligations.CpushAppendsOneCharacter : Prop :=
  ∀ (cp : BitVec 24) (s : State),
    decode (BitVec.ofNat 32 (0x11000000 + cp.toNat)) = .ok (.cpush cp) ∧
    (s.cvalid = true → s.clen.val ≤ 16 →
      ∃ (cbuf' : Vector Byte 17) (clen' : Fin 19),
        exec (.cpush cp) s = .next { s with cbuf := cbuf', clen := clen' } ∧ clen'.val = s.clen.val + 1 ∧
        ∀ i, i < 17 → contentByte cbuf' i =
          if i = s.clen.val then BitVec.ofNat 8 (cp.toNat % 256) else contentByte s.cbuf i) ∧
    (s.cvalid = true → 16 < s.clen.val → exec (.cpush cp) s = .next { s with clen := 18 }) ∧
    (s.cvalid = false → exec (.cpush cp) s = .next { s with err := { s.err with ill := true } })

/-- R58 with R93, R95: CSTR hands over a whole text from any state: its length, saturating at 18, and the low bytes of
its first 17 characters. -/
def Obligations.CstrHandsOverAText : Prop :=
  ∀ (text : List (BitVec 24)) (s : State),
    ∃ (cbuf' : Vector Byte 17) (clen' : Fin 19),
      runAll (cstr text) s = .next { s with cvalid := true, cbuf := cbuf', clen := clen' } ∧
      clen'.val = min text.length 18 ∧
      ∀ i, i < 17 → contentByte cbuf' i =
        match text[i]? with
        | some cp => BitVec.ofNat 8 (cp.toNat % 256)
        | none => 0#8

/-- R103 with R102: at STG = 3 with an empty stream (R102's precondition) and a content of at most 17 characters, ENCODE
leaves the closed form of R103 in BS[0..151], BSLEN = 152 and STG = 4, and changes nothing else. -/
def Obligations.EncodeAppendsTheClosedForm : Prop :=
  ∀ s : State, s.stg = .format → s.bslen = 0 → s.cvalid = true → s.clen.val ≤ 17 →
    ∃ bs' : Vector Bool 208, exec .encode s = .next { s with bs := bs', bslen := 152, stg := .encoded } ∧
      HoldsData bs' s.clen.val (contentByte s.cbuf) ∧
      ∀ i, 152 ≤ i → i < 208 → streamBit bs' i = streamBit s.bs i

/-- R98, R102, R132, R133: at STG = 3 ENCODE raises InvalidInput on null content and CapacityExceeded on 18 characters or
more, and either one aborts the run and keeps the content; at any other STG it only raises IllegalCommand. -/
def Obligations.EncodeFailuresAbort : Prop :=
  (∀ s : State, s.stg ≠ .format → exec .encode s = .next { s with err := { s.err with ill := true } }) ∧
  ∀ s : State, s.stg = .format →
    (s.cvalid = false → exec .encode s = .next
      { s with err := { s.err with inv := true }, g := Vector.replicate 21 (Vector.replicate 21 false),
               bs := Vector.replicate 208 false, bslen := 0, stg := .empty }) ∧
    (s.cvalid = true → s.clen.val = 18 → exec .encode s = .next
      { s with err := { s.err with cap := true }, g := Vector.replicate 21 (Vector.replicate 21 false),
               bs := Vector.replicate 208 false, bslen := 0, stg := .empty })

/-! ## ECCCAT, PLACE, MASK -/

/-- R105 (its default), R106, R107: at STG = 4 ECCCAT keeps BS[0..151], appends 1,0,1,0,... as BS[152..207] (the
placeholder the spec says this hardware implements, log 5), sets BSLEN = 208 and STG = 5, and changes nothing else. -/
def Obligations.EcccatAppendsThePlaceholder : Prop :=
  ∀ s : State, s.stg = .encoded →
    ∃ bs' : Vector Bool 208, exec .ecccat s = .next { s with bs := bs', bslen := 208, stg := .concat } ∧
      (∀ i, i < 152 → streamBit bs' i = streamBit s.bs i) ∧
      (∀ j, j < 56 → streamBit bs' (152 + j) = decide (j % 2 = 0))

/-- R106, R107 for every ECC_FN: data bits, then the strategy's 56 bits; the strategy is asked about the data bits alone;
at any other STG only IllegalCommand is raised; and ECCCAT is this with the strategy the hardware has. -/
def Obligations.EcccatForAnyStrategy : Prop :=
  (decode 0x05000000#32 = .ok .ecccat ∧ ∀ s : State, exec .ecccat s = (ecccatRun config s).outcome) ∧
  (∀ (cfg : Config) (s : State), s.stg ≠ .encoded →
    ecccatRun cfg s = .raised { s with err := { s.err with ill := true } }) ∧
  (∀ (cfg : Config) (s : State), s.stg = .encoded →
    ∃ bs' : Vector Bool 208, ecccatRun cfg s = .completed { s with bs := bs', bslen := 208, stg := .concat } ∧
      (∀ i, i < 152 → streamBit bs' i = streamBit s.bs i) ∧ HoldsEcc cfg.eccFn bs') ∧
  (∀ (cfg : Config) (s s' t t' : State), (∀ i, i < 152 → streamBit s.bs i = streamBit s'.bs i) →
    s.stg = .encoded → s'.stg = .encoded → ecccatRun cfg s = .completed t → ecccatRun cfg s' = .completed t' →
    t.bs = t'.bs)

/-- R112 to R115: at STG = 5 PLACE gives the free cells, in the order R115 lists, one stream bit each while there is one
and 0 after that, leaves every reserved cell untouched, sets STG = 6, and changes nothing else; at any other STG it only
raises IllegalCommand. -/
def Obligations.PlaceFillsTheFreeCells : Prop :=
  decode 0x06000000#32 = .ok .place ∧
  (∀ s : State, s.stg ≠ .concat → exec .place s = .next { s with err := { s.err with ill := true } }) ∧
  ∀ s : State, s.stg = .concat →
    ∃ g' : Grid, exec .place s = .next { s with g := g', stg := .placed } ∧
      (∀ r c, r < 21 → c < 21 → reservedCell r c = true → g'.get r c = s.g.get r c) ∧
      (∀ i rc, placeTable[i]? = some rc →
        g'.get rc.1 rc.2 = if i < s.bslen.val then streamBit s.bs i else false) ∧
      placeTable.length = 224 ∧ placeTable.Nodup ∧
      (∀ r c, r < 21 → c < 21 → reservedCell r c = false → (r, c) ∈ placeTable)

/-- R118, R119: at STG = 6 MASK inverts the free cells with row + col even, keeps the other free cells and all reserved
ones, sets STG = 7 so that DONE = 1, and changes nothing else; at any other STG it only raises IllegalCommand. -/
def Obligations.MaskTogglesTheFreeCells : Prop :=
  decode 0x07000000#32 = .ok .mask ∧
  (∀ s : State, s.stg ≠ .placed → exec .mask s = .next { s with err := { s.err with ill := true } }) ∧
  ∀ s : State, s.stg = .placed →
    ∃ g' : Grid, exec .mask s = .next { s with g := g', stg := .done } ∧
      ∀ r c, r < 21 → c < 21 → g'.get r c =
        if reservedCell r c then s.g.get r c else (s.g.get r c ^^ decide ((r + c) % 2 = 0))

/-- R119, R71(c): exactly 112 cells differ across MASK, for every grid; and as a function on grids MASK is its own
inverse. -/
def Obligations.MaskInvertsOneHundredAndTwelveCells : Prop :=
  (∀ s t : State, s.stg = .placed → exec .mask s = .next t →
    (allCells.filter fun rc => s.g.get rc.1 rc.2 != t.g.get rc.1 rc.2).length = 112) ∧
  (∀ g : Grid, maskGrid (maskGrid g) = g)

/-! ## The classifier and QRSV (40_classifier) -/

/-- R72, R70: on the grid QRSV answers the reserved map in RES; off the grid it raises IllegalCommand; it changes nothing
else, from every state. -/
def Obligations.QrsvAnswersTheReservedMap : Prop :=
  ∀ (r c : Nat) (s : State),
    (r < 32 → c < 32 → decode (BitVec.ofNat 32 (0x20000000 + 256 * r + c)) = .ok (.qrsv r c)) ∧
    (r ≤ 20 → c ≤ 20 → isReserved r c = reservedCell r c) ∧
    (r ≤ 20 → c ≤ 20 → exec (.qrsv r c) s = .next { s with res := reservedCell r c }) ∧
    (20 < r ∨ 20 < c → exec (.qrsv r c) s = .next { s with err := { s.err with ill := true } })

/-- R71(a) to (c): 217 reserved and 224 free cells, the free cells of each column, and their parities. -/
def Obligations.ReservedCellCounts : Prop :=
  (allCells.filter fun rc => isReserved rc.1 rc.2).length = 217 ∧
  (allCells.filter fun rc => !isReserved rc.1 rc.2).length = 224 ∧
  ((List.range 21).map fun c => ((List.range 21).filter fun r => !isReserved r c).length) =
    [4, 4, 4, 4, 4, 4, 0, 4, 12, 20, 20, 20, 20, 13, 13, 13, 13, 13, 13, 13, 13] ∧
  (allCells.filter fun rc => !isReserved rc.1 rc.2 && (rc.1 + rc.2) % 2 == 0).length = 112 ∧
  (allCells.filter fun rc => !isReserved rc.1 rc.2 && (rc.1 + rc.2) % 2 == 1).length = 112

/-! ## GEN (47_orchestration) -/

/-- R120, R124: from every state with a content of at most 17 characters GEN ends at DONE with the closed-form stream;
each free cell is its stream bit, or 0 past the stream, XOR the parity of row + col; each reserved cell is its value
after PFORMAT; ERR is clear and nothing else changes. -/
def Obligations.GenBuildsTheFinalGrid : Prop :=
  ∀ s : State, s.cvalid = true → s.clen.val ≤ 17 →
    ∃ (g' : Grid) (bs' : Vector Bool 208),
      exec .gen s = .next
        { s with g := g', bs := bs', bslen := 208, err := ⟨false, false, false⟩, stg := .done } ∧
      HoldsData bs' s.clen.val (contentByte s.cbuf) ∧ HoldsEcc config.eccFn bs' ∧
      (∀ i rc, placeTable[i]? = some rc →
        g'.get rc.1 rc.2 = ((if i < 208 then streamBit bs' i else false) ^^ decide ((rc.1 + rc.2) % 2 = 0))) ∧
      (∀ r c, r < 21 → c < 21 → reservedCell r c = true → g'.get r c = s2Cell config.formatWord r c)

/-- R124, R127(f): STEPALL, the seven step commands issued one by one, and GEN end in the same state from every state
with a content that fits. On any other content R126 and R131(b) make STEPALL's last three commands raise IllegalCommand
after the abort, so it ends in GEN's state with ERR[2] set as well; that R127(f) is read of runs that succeed is the
model's reading (DEDUCED, log 19). -/
def Obligations.GenEqualsStepAll : Prop :=
  ∀ s : State,
    (contentFits s = true → ∃ t, runAll stepAll s = .next t ∧ exec .gen s = .next t) ∧
    (contentFits s = false → ∃ t, exec .gen s = .next t ∧
      runAll stepAll s = .next { t with err := { t.err with ill := true } })

/-- R124, R130, R135: on null content and on 18 characters or more GEN leaves the abort state with that one ERR bit, from
every state; nothing of the structural or format writes survives. -/
def Obligations.GenFailuresAbort : Prop :=
  ∀ s : State,
    (s.cvalid = false → exec .gen s = .next
      { s with err := ⟨true, false, false⟩, g := Vector.replicate 21 (Vector.replicate 21 false),
               bs := Vector.replicate 208 false, bslen := 0, stg := .empty }) ∧
    (s.cvalid = true → s.clen.val = 18 → exec .gen s = .next
      { s with err := ⟨false, true, false⟩, g := Vector.replicate 21 (Vector.replicate 21 false),
               bs := Vector.replicate 208 false, bslen := 0, stg := .empty })

/-- R158: after GEN, DONE = 1 means success, DONE = 0 means failure with the cause in ERR[1:0]. -/
def Obligations.GenSuccessIsShownByDone : Prop :=
  ∀ s t : State, exec .gen s = .next t →
    doneFlag t = contentFits s ∧ (doneFlag t = false ↔ (t.err.inv = true ∨ t.err.cap = true))

/-- R127(c): the state after GEN does not depend on the state before it except for the content and RES (and the host's
own lists, log 1 and log 2). -/
def Obligations.GenIgnoresTheEarlierRun : Prop :=
  ∀ s s' : State, s.cvalid = s'.cvalid → s.clen = s'.clen → s.cbuf = s'.cbuf → s.res = s'.res →
    s.pending = s'.pending → s.answers = s'.answers → exec .gen s = exec .gen s'

/-- R127(b): for any two contents that both succeed, and whatever the stand-in strategies, the reserved cells hold the
same values at DONE, namely S2 of the common format word. -/
def Obligations.ReservedCellsIgnoreTheContent : Prop :=
  ∀ (cfg cfg' : Config) (s s' t t' : State), cfg.formatWord = cfg'.formatWord →
    genRun cfg s = .completed t → genRun cfg' s' = .completed t' →
    ∀ r c, r < 21 → c < 21 → reservedCell r c = true →
      t.g.get r c = s2Cell cfg.formatWord r c ∧ t'.g.get r c = t.g.get r c

/-- R154: once ENCODE has run, a change of content does not reach the grid or the stream of the current run. -/
def Obligations.LaterContentDoesNotReachTheGrid : Prop :=
  ∀ (i : Instr) (s t : State) (cv : Bool) (cl : Fin 19) (cb : Vector Byte 17),
    i ∈ [Instr.ecccat, .place, .mask] → exec i s = .next t →
    exec i { s with cvalid := cv, clen := cl, cbuf := cb } = .next { t with cvalid := cv, clen := cl, cbuf := cb }

/-! ## The invariant (10_state R25) -/

/-- R25, with R12, R15 and the model's own clause on content bytes past CLEN (log 14): every step keeps the invariant,
from every state that meets it. A step serves one entry of the model's own list (log 1). -/
def Obligations.EveryStepKeepsTheStageInvariant : Prop :=
  ∀ s t : State, Inv config s → step s = .next t → Inv config t

/-- R25, row STG = 0, with R12, R15 and the model's own clause on content bytes past CLEN (log 14): the reset state meets
the invariant, whatever the host has pending (the model's own list, log 1). -/
def Obligations.ResetMeetsTheStageInvariant : Prop :=
  ∀ events : List PortEvent, Inv config { State.reset with pending := events }

/-- R25, with R12 and R15's invariants: the table holds in every state that any list of outside events leads to from
reset (the model's own list, log 1); `BS[i]` past BSLEN is 0, and null content has length 0. -/
def Obligations.ReachableStatesMeetTheStageTable : Prop :=
  ∀ s : State, Reachable s →
    StageInv config s ∧ (∀ i, i < 208 → s.bslen.val ≤ i → streamBit s.bs i = false) ∧ (s.cvalid = false → s.clen = 0)

/-- From a state that meets the invariant no step faults. The fault is the model's own (log 7): the spec names none, and R7
only says that BsAppend is used where BSLEN + n <= 208; with R98's check and R25's empty stream at STG = 3 that limit is
kept. The invariant is R25's with R12, R15 and the model's own clause on content bytes past CLEN (log 14). A step
serves one entry of the model's own list (log 1). -/
def Obligations.InvariantStatesNeverFault : Prop :=
  ∀ (s : State) (f : Fault), Inv config s → step s ≠ .fault f

/-- R25 (row STG = 7) with R103, R107 and R120: in a reachable state with DONE = 1 the reserved cells of G are
S2 and its free cells are the complete, masked stream of some content of at most 17 characters. A state is
reachable by some list of outside events (the model's own list, log 1). -/
def Obligations.DoneMeansAFinishedGrid : Prop :=
  ∀ s : State, Reachable s → IsResult s →
    (∀ r c, r < 21 → c < 21 → reservedCell r c = true → s.g.get r c = s2Cell config.formatWord r c) ∧
    (∃ n b, n ≤ 17 ∧ HoldsData s.bs n b) ∧ HoldsEcc config.eccFn s.bs ∧
    ∀ i rc, placeTable[i]? = some rc →
      s.g.get rc.1 rc.2 = ((if i < 208 then streamBit s.bs i else false) ^^ decide ((rc.1 + rc.2) % 2 = 0))
end

