-- ==== Sys2Proof/Laws/Decode.lean ====
section
/-! SUPPORT. Fields of a word as numbers: what an extracted field and a concatenation are worth, the value of an encoded
instruction's word, and the decoder's case analysis. -/

namespace Sys2Proof

theorem toNat_append_add {m n : Nat} (x : BitVec m) (y : BitVec n) :
    (x ++ y).toNat = x.toNat * 2 ^ n + y.toNat := by
  rw [BitVec.toNat_append, ← Nat.shiftLeft_add_eq_or_of_lt y.isLt, Nat.shiftLeft_eq]

theorem toNat_field (w : Word) (s l : Nat) : (w.extractLsb' s l).toNat = w.toNat / 2 ^ s % 2 ^ l := by
  rw [BitVec.extractLsb'_toNat, Nat.shiftRight_eq_div_pow]

/-- A field is a constant exactly when its number is. -/
theorem field_eq_iff (w : Word) (s l v : Nat) :
    w.extractLsb' s l = BitVec.ofNat l v ↔ w.toNat / 2 ^ s % 2 ^ l = v % 2 ^ l := by
  rw [← BitVec.toNat_inj, toNat_field, BitVec.toNat_ofNat]

theorem encode_toNat (i : Instr) : (encode i).toNat = i.op.toNat * 2 ^ 24 + i.operandBits.toNat := toNat_append_add _ _

/-- The operand bits of a coordinate pair: row in bits [12:8], column in bits [4:0] (R51). -/
theorem qrsv_operand_toNat (r c : Nat) :
    (Instr.qrsv r c).operandBits.toNat = 256 * (r % 32) + c % 32 := by
  show (0#11 ++ (BitVec.ofNat 5 r ++ (0#3 ++ BitVec.ofNat 5 c))).toNat = _
  rw [toNat_append_add, toNat_append_add, toNat_append_add]
  simp only [BitVec.toNat_ofNat]
  omega

theorem word_lt (w : Word) : w.toNat < 4294967296 := w.isLt

/-- Two words with the same number are equal. -/
theorem word_ext {w w' : Word} (h : w.toNat = w'.toNat) : w = w' := BitVec.eq_of_toNat_eq h

theorem decodeZ_ok_iff (w : Word) (i j : Instr) :
    decodeZ w i = .ok j ↔ w.toNat % 16777216 = 0 ∧ j = i := by
  have h := field_eq_iff w 0 24 0
  simp only [Nat.pow_zero, Nat.div_one, Nat.zero_mod, show (2 ^ 24 : Nat) = 16777216 from rfl] at h
  unfold decodeZ
  split
  · rename_i hz; simp [h.mp hz, eq_comm]
  · rename_i hz; simp; exact fun hh => absurd (h.mpr hh) hz

theorem decodeQ_ok_iff (w : Word) (j : Instr) :
    decodeQ w = .ok j ↔ w.toNat / 8192 % 2048 = 0 ∧ w.toNat / 32 % 8 = 0 ∧
      j = .qrsv (w.toNat / 256 % 32) (w.toNat % 32) := by
  have h1 := field_eq_iff w 13 11 0
  have h2 := field_eq_iff w 5 3 0
  norm_num at h1 h2
  unfold decodeQ
  rw [toNat_field, toNat_field]
  norm_num
  split
  · rename_i hz
    simp only [h1.mp hz.1, h2.mp hz.2, Except.ok.injEq, true_and]
    exact eq_comm
  · rename_i hz
    refine ⟨fun h => (by cases h), fun h => absurd ⟨h1.mpr h.1, h2.mpr h.2.1⟩ hz⟩

theorem decodeC_eq (w : Word) : decodeC w = .ok (.cpush (BitVec.ofNat 24 (w.toNat % 16777216))) := by
  unfold decodeC
  congr 2
  apply BitVec.eq_of_toNat_eq
  rw [toNat_field]; simp

theorem opField_toNat (w : Word) : (opField w).toNat = w.toNat / 16777216 := by
  have h := word_lt w
  rw [opField, toNat_field]
  omega

end Sys2Proof
end

