-- ==== Sys2Proof/Laws/State.lean ====
section
/-! SUPPORT. One lemma per field per named update of the state, all true by unfolding, and the equations of `raise`, so
that no proof unfolds a record update. -/

namespace Sys2Proof.Machine

section Abort
variable (s : State)
@[simp] theorem abort_g : (abort s).g = Grid.light := rfl
@[simp] theorem abort_bs : (abort s).bs = zeroStream := rfl
@[simp] theorem abort_bslen : (abort s).bslen = 0 := rfl
@[simp] theorem abort_stg : (abort s).stg = .empty := rfl
@[simp] theorem abort_cbuf : (abort s).cbuf = s.cbuf := rfl
@[simp] theorem abort_clen : (abort s).clen = s.clen := rfl
@[simp] theorem abort_cvalid : (abort s).cvalid = s.cvalid := rfl
@[simp] theorem abort_err : (abort s).err = s.err := rfl
@[simp] theorem abort_res : (abort s).res = s.res := rfl
@[simp] theorem abort_pending : (abort s).pending = s.pending := rfl
@[simp] theorem abort_answers : (abort s).answers = s.answers := rfl
end Abort

section Raise
variable (c : Cause) (s : State)
@[simp] theorem raise_cbuf : (raise c s).cbuf = s.cbuf := by cases c <;> rfl
@[simp] theorem raise_clen : (raise c s).clen = s.clen := by cases c <;> rfl
@[simp] theorem raise_cvalid : (raise c s).cvalid = s.cvalid := by cases c <;> rfl
@[simp] theorem raise_res : (raise c s).res = s.res := by cases c <;> rfl
@[simp] theorem raise_err : (raise c s).err = s.err.record c := by cases c <;> rfl
@[simp] theorem raise_pending : (raise c s).pending = s.pending := by cases c <;> rfl
@[simp] theorem raise_answers : (raise c s).answers = s.answers := by cases c <;> rfl

/-- R134: nothing but ERR[2]. -/
theorem raise_illegalCommand :
    raise .illegalCommand s = { s with err := { s.err with ill := true } } := rfl

/-- R132 with R135. -/
theorem raise_invalidInput :
    raise .invalidInput s = abort { s with err := { s.err with inv := true } } := rfl

/-- R133 with R135. -/
theorem raise_capacityExceeded :
    raise .capacityExceeded s = abort { s with err := { s.err with cap := true } } := rfl
end Raise

section Reset
variable (s : State)
@[simp] theorem resetEngine_g : (resetEngine s).g = State.reset.g := rfl
@[simp] theorem resetEngine_bs : (resetEngine s).bs = State.reset.bs := rfl
@[simp] theorem resetEngine_bslen : (resetEngine s).bslen = 0 := rfl
@[simp] theorem resetEngine_cbuf : (resetEngine s).cbuf = State.reset.cbuf := rfl
@[simp] theorem resetEngine_clen : (resetEngine s).clen = 0 := rfl
@[simp] theorem resetEngine_cvalid : (resetEngine s).cvalid = false := rfl
@[simp] theorem resetEngine_stg : (resetEngine s).stg = .empty := rfl
@[simp] theorem resetEngine_err : (resetEngine s).err = ErrMask.none := rfl
@[simp] theorem resetEngine_res : (resetEngine s).res = false := rfl
@[simp] theorem resetEngine_pending : (resetEngine s).pending = s.pending := rfl
@[simp] theorem resetEngine_answers : (resetEngine s).answers = s.answers := rfl
end Reset

/-- `withFetchWord` puts one CMD write in front and changes nothing else. -/
theorem withFetchWord_eq (s : State) (nbits w : Nat) :
    s.withFetchWord nbits w =
      { s with pending := cmdWrite (BitVec.ofNat 32 (w % 2 ^ nbits)) :: s.pending } := rfl

section Run
@[simp] theorem andThen_completed (s : State) (f : State → Run) : (Run.completed s).andThen f = f s := rfl
@[simp] theorem andThen_raised (s : State) (f : State → Run) : (Run.raised s).andThen f = .raised s := rfl
@[simp] theorem andThen_stopped (e : Fault) (f : State → Run) : (Run.stopped e).andThen f = .stopped e := rfl
@[simp] theorem outcome_completed (s : State) : (Run.completed s).outcome = .next s := rfl
@[simp] theorem outcome_raised (s : State) : (Run.raised s).outcome = .next s := rfl
@[simp] theorem outcome_stopped (f : Fault) : (Run.stopped f).outcome = .fault f := rfl

theorem requireStage_of_eq {k : Stage} {s : State} (body : State → Run) (h : s.stg = k) :
    requireStage k s body = body s := if_pos h

theorem requireStage_of_ne {k : Stage} {s : State} (body : State → Run) (h : s.stg ≠ k) :
    requireStage k s body = .raised (raise .illegalCommand s) := if_neg h
end Run

end Sys2Proof.Machine
end

