-- ==== Sys2Proof/Laws/Stream.lean ====
section
/-! SUPPORT. The stream operations: what appending does to the length and to each bit, each step of ENCODE as one list of
appended bits, and ENCODE's stream as the closed form of R103. -/

namespace Sys2Proof.Machine

@[simp] theorem streamBit_lt (bs : Vector Bool 208) {i : Nat} (h : i < 208) : streamBit bs i = bs[i] := dif_pos h

theorem streamBit_outside (bs : Vector Bool 208) {i : Nat} (h : ¬i < 208) : streamBit bs i = false := dif_neg h

@[simp] theorem streamBit_zeroStream (i : Nat) : streamBit zeroStream i = false := by
  unfold streamBit zeroStream; split <;> simp

/-- Two streams with equal bits are equal. -/
theorem streamBit_ext {bs bs' : Vector Bool 208} (h : ∀ i, i < 208 → streamBit bs i = streamBit bs' i) : bs = bs' :=
  Vector.ext fun i hi => by simpa [hi] using h i hi

@[simp] theorem pushBit_len (st : Stream) (b : Bool) : (st.pushBit b).len = st.len + 1 := rfl

theorem streamBit_pushBit (st : Stream) (b : Bool) (i : Nat) :
    streamBit (st.pushBit b).bits i = if i = st.len ∧ i < 208 then b else streamBit st.bits i := by
  unfold Stream.pushBit streamBit
  by_cases hl : st.len < 208 <;> by_cases hi : i < 208
  · by_cases e : i = st.len
    · subst e; simp [hl]
    · simp [hl, hi, e, Ne.symm e]
  · simp [hi]
  · simp [hl, hi, show i ≠ st.len by omega]
  · simp [hi]

@[simp] theorem pushBits_nil (st : Stream) : st.pushBits [] = st := rfl

theorem pushBits_cons (st : Stream) (b : Bool) (l : List Bool) : st.pushBits (b :: l) = (st.pushBit b).pushBits l := rfl

theorem pushBits_append (st : Stream) (l l' : List Bool) :
    st.pushBits (l ++ l') = (st.pushBits l).pushBits l' := List.foldl_append

@[simp] theorem pushBits_len (st : Stream) (l : List Bool) : (st.pushBits l).len = st.len + l.length := by
  induction l generalizing st with
  | nil => rfl
  | cons b l ih => rw [pushBits_cons, ih]; simp; omega

/-- Appending bits: bit i is the appended one inside the appended range and unchanged elsewhere (R7, R12). -/
theorem streamBit_pushBits (st : Stream) (l : List Bool) (i : Nat) (hi : i < 208) :
    streamBit (st.pushBits l).bits i =
      if st.len ≤ i then (l[i - st.len]?).getD (streamBit st.bits i) else streamBit st.bits i := by
  induction l generalizing st with
  | nil => simp
  | cons b l ih =>
    rw [pushBits_cons, ih, streamBit_pushBit, pushBit_len]
    rcases Nat.lt_trichotomy i st.len with h | h | h
    · simp [show ¬st.len + 1 ≤ i by omega, show ¬st.len ≤ i by omega, show i ≠ st.len by omega]
    · subst h; simp [hi]
    · rw [if_pos (show st.len + 1 ≤ i by omega), if_pos (show st.len ≤ i by omega),
        show i - st.len = (i - (st.len + 1)) + 1 by omega]
      simp [show i ≠ st.len by omega]

/-! ## Values as bits -/

theorem msbFirst_length {n : Nat} (v : BitVec n) : (msbFirst v).length = n := by simp [msbFirst]

theorem numberBits_length (w n : Nat) : (numberBits w n).length = w := by simp [numberBits]

theorem msbFirst_eq_numberBits {n : Nat} (v : BitVec n) : msbFirst v = numberBits n v.toNat := rfl

theorem bsAppend_eq {n : Nat} (v : BitVec n) (st : Stream) : bsAppend v st = st.pushBits (numberBits n v.toNat) := rfl

@[simp] theorem bsAppend_len {n : Nat} (v : BitVec n) (st : Stream) : (bsAppend v st).len = st.len + n := by
  simp [bsAppend, msbFirst_length]

/-! ## The six steps -/

theorem appendHeader_eq {n : Nat} (h : n < 256) (st : Stream) :
    appendHeader n st = st.pushBits (numberBits 4 0b0100 ++ numberBits 8 n) := by
  rw [appendHeader, bsAppend_eq, bsAppend_eq, pushBits_append]
  simp [Nat.mod_eq_of_lt h]

theorem appendPayload_eq (cbuf : Vector Byte 17) (n : Nat) (st : Stream) :
    appendPayload cbuf n st =
      st.pushBits ((List.range n).flatMap fun i => numberBits 8 (contentByte cbuf i).toNat) := by
  unfold appendPayload
  induction n with
  | zero => rfl
  | succ n ih => rw [List.range_succ, List.foldl_append, ih, List.flatMap_append, pushBits_append]; simp [bsAppend_eq]

/-- R99: on every accepted content the length is 4 mod 8 here and the terminator is 4 bits. -/
theorem terminatorLength_of_mod {len : Nat} (h : len % 8 = 4) : terminatorLength len = 4 := by
  simp [terminatorLength, h]

theorem appendTerminator_of_mod {st : Stream} (h : st.len % 8 = 4) :
    appendTerminator st = st.pushBits (numberBits 4 0) := by
  rw [appendTerminator, terminatorLength_of_mod h]; rfl

/-- R100: nothing to align on a byte boundary. -/
theorem appendAlignment_of_mod (fuel : Nat) {st : Stream} (h : st.len % 8 = 0) : appendAlignment fuel st = st := by
  cases fuel with
  | zero => rfl
  | succ n => exact if_pos h

theorem padByte_toNat (k : Nat) : (padByte k).toNat = if k % 2 = 0 then 0xEC else 0x11 := by
  unfold padByte; split <;> rfl

theorem appendPads_eq (m fuel k : Nat) (st : Stream) (hm : m ≤ fuel) (h : st.len + 8 * m = 152) :
    appendPads fuel k st =
      st.pushBits ((List.range' k m).flatMap fun k => numberBits 8 (if k % 2 = 0 then 0xEC else 0x11)) := by
  induction m generalizing fuel k st with
  | zero =>
    cases fuel with
    | zero => rfl
    | succ f => exact if_neg (by omega)
  | succ m ih =>
    obtain ⟨f, rfl⟩ : ∃ f, fuel = f + 1 := ⟨fuel - 1, by omega⟩
    rw [appendPads, if_pos (by omega), ih f (k + 1) _ (by omega) (by simp; omega), bsAppend_eq,
      padByte_toNat, List.range'_succ, List.flatMap_cons, pushBits_append]

theorem flatMap_length_const {α β : Type} (l : List α) (f : α → List β) (k : Nat) (h : ∀ a, (f a).length = k) :
    (l.flatMap f).length = k * l.length := by
  induction l with
  | nil => simp
  | cons a l ih => simp [h, ih, Nat.mul_add, Nat.add_comm]

/-- R103: the closed form has 152 bits. -/
theorem encodedBits_length {n : Nat} (h : n ≤ 17) (b : Nat → Byte) : (encodedBits n b).length = 152 := by
  simp only [encodedBits, List.length_append, numberBits_length]
  rw [flatMap_length_const _ _ 8 fun i => numberBits_length _ _, flatMap_length_const _ _ 8 fun k => numberBits_length _ _]
  simp only [List.length_range]
  omega

/-- R103: ENCODE from an empty stream appends the closed form. -/
theorem encodeStream_eq (cbuf : Vector Byte 17) {n : Nat} (h : n ≤ 17) (bs : Vector Bool 208) :
    encodeStream cbuf n ⟨bs, 0⟩ = Stream.pushBits ⟨bs, 0⟩ (encodedBits n (contentByte cbuf)) := by
  rw [encodeStream, appendHeader_eq (by omega), appendPayload_eq, ← pushBits_append]
  have hlen : (numberBits 4 0b0100 ++ numberBits 8 n ++
      (List.range n).flatMap fun i => numberBits 8 (contentByte cbuf i).toNat).length = 12 + 8 * n := by
    simp only [List.length_append, numberBits_length]
    rw [flatMap_length_const _ _ 8 fun i => numberBits_length _ _]
    simp
  rw [appendTerminator_of_mod (by rw [pushBits_len, hlen]; show (0 + (12 + 8 * n)) % 8 = 4; omega), ← pushBits_append,
    appendAlignment_of_mod _ (by
      rw [pushBits_len, List.length_append, hlen, numberBits_length]
      show (0 + (12 + 8 * n + 4)) % 8 = 0; omega),
    appendPads_eq (17 - n) 19 0 _ (by omega) (by
      rw [pushBits_len, List.length_append, hlen, numberBits_length]
      show 0 + (12 + 8 * n + 4) + 8 * (17 - n) = 152; omega), ← pushBits_append, encodedBits,
    ← List.range_eq_range']

/-! ## The concatenator -/

theorem streamBit_concat_data (f : Vector Bool 152 → Vector Bool 56) (bs : Vector Bool 208) {i : Nat} (h : i < 152) :
    streamBit (concatStream f bs) i = streamBit bs i := by
  simp [concatStream, h, show i < 208 by omega]

theorem streamBit_concat_ecc (f : Vector Bool 152 → Vector Bool 56) (bs : Vector Bool 208) {j : Nat} (h : j < 56) :
    streamBit (concatStream f bs) (152 + j) = (f (dataBits bs))[j] := by
  simp [concatStream, show 152 + j < 208 by omega]

/-- The stand-in leaves the data bits as they were (R107). -/
theorem dataBits_concat (f : Vector Bool 152 → Vector Bool 56) (bs : Vector Bool 208) :
    dataBits (concatStream f bs) = dataBits bs := by
  refine Vector.ext fun i hi => ?_
  simp only [dataBits, Vector.getElem_ofFn]
  exact streamBit_concat_data f bs hi

end Sys2Proof.Machine
end

