-- ==== Sys2Proof/Laws/Grid.lean ====
section
/-! SUPPORT. Reading a cell after each grid operation: a read after a write of the same cell gives the value written, a
write leaves every other cell alone; the same for lists of writes, for the placement fill and for the masking loop. -/

namespace Sys2Proof.Machine

set_option Elab.async false

theorem Grid.get_outside (g : Grid) {r c : Nat} (h : ¬(r < 21 ∧ c < 21)) : g.get r c = false := dif_neg h

theorem Grid.set_outside (g : Grid) {r c : Nat} (b : Bool) (h : ¬(r < 21 ∧ c < 21)) : g.set r c b = g := dif_neg h

@[simp] theorem Grid.get_light (r c : Nat) : Grid.light.get r c = false := by
  unfold Grid.get Grid.light; split <;> simp

/-- Read after write (R7). -/
theorem Grid.get_set (g : Grid) (r c r' c' : Nat) (b : Bool) :
    (g.set r c b).get r' c' = if r' = r ∧ c' = c ∧ r < 21 ∧ c < 21 then b else g.get r' c' := by
  by_cases h : r < 21 ∧ c < 21
  · by_cases h' : r' < 21 ∧ c' < 21
    · simp only [Grid.get, Grid.set, dif_pos h, dif_pos h', Vector.getElem_set]
      by_cases e : r' = r
      · subst e
        by_cases e' : c' = c
        · subst e'; simp [h]
        · simp [e', Ne.symm e']
      · simp [e, Ne.symm e]
    · rw [Grid.get_outside _ h', Grid.get_outside _ h', if_neg]
      rintro ⟨rfl, rfl, h''⟩
      exact h' h''
  · rw [Grid.set_outside _ _ h, if_neg]
    exact fun hh => h hh.2.2

theorem Grid.get_set_same (g : Grid) {r c : Nat} (b : Bool) (hr : r < 21) (hc : c < 21) :
    (g.set r c b).get r c = b := by simp [Grid.get_set, hr, hc]

theorem Grid.get_set_other (g : Grid) {r c r' c' : Nat} (b : Bool) (h : (r', c') ≠ (r, c)) :
    (g.set r c b).get r' c' = g.get r' c' := by
  rw [Grid.get_set, if_neg]
  rintro ⟨rfl, rfl, -⟩
  exact h rfl

/-- Two grids with equal cells are equal. -/
theorem Grid.ext_get {g g' : Grid} (h : ∀ r c, r < 21 → c < 21 → g.get r c = g'.get r c) : g = g' := by
  refine Vector.ext fun r hr => Vector.ext fun c hc => ?_
  simpa [Grid.get, hr, hc] using h r c hr hc

/-- A grid with no dark cell is the light grid. -/
theorem Grid.eq_light {g : Grid} (h : ∀ r c, g.get r c = false) : g = Grid.light :=
  Grid.ext_get fun r c _ _ => by simp [h]

/-! ## Lists of writes -/

/-- The value of the last write to a cell in a list of writes, if any. -/
def lastWrite (ws : List CellWrite) (r c : Nat) : Option Bool :=
  ws.foldl (fun acc w => if r == w.1 && c == w.2.1 then some w.2.2 else acc) none

theorem lastWrite_foldl (ws : List CellWrite) (r c : Nat) (o : Option Bool) :
    ws.foldl (fun acc w => if r == w.1 && c == w.2.1 then some w.2.2 else acc) o =
      (lastWrite ws r c).or o := by
  unfold lastWrite
  induction ws generalizing o with
  | nil => simp
  | cons w ws ih =>
    simp only [List.foldl_cons]
    rw [ih (if (r == w.1 && c == w.2.1) = true then some w.2.2 else o),
      ih (if (r == w.1 && c == w.2.1) = true then some w.2.2 else none)]
    split <;> simp

/-- Reading a cell after a list of writes: the last write of that cell, or else the old value. -/
theorem Grid.get_writeAll (g : Grid) (ws : List CellWrite) {r c : Nat} (hr : r < 21) (hc : c < 21) :
    (g.writeAll ws).get r c = (lastWrite ws r c).getD (g.get r c) := by
  induction ws generalizing g with
  | nil => rfl
  | cons w ws ih =>
    show ((g.set w.1 w.2.1 w.2.2).writeAll ws).get r c = _
    rw [ih, Grid.get_set]
    show _ = (List.foldl _ (if r == w.1 && c == w.2.1 then some w.2.2 else none) ws).getD _
    rw [lastWrite_foldl]
    cases lastWrite ws r c <;> by_cases h : r = w.1 ∧ c = w.2.1
    · obtain ⟨rfl, rfl⟩ := h; simp [hr, hc]
    · rw [if_neg (fun hh => h ⟨hh.1, hh.2.1⟩)]; simp [h]
    · simp
    · simp

/-! ## The masking loop -/

theorem mem_allCells {r c : Nat} : (r, c) ∈ allCells ↔ r < 21 ∧ c < 21 := by
  simp [allCells]

/-- Cells told apart by R31's linear index. -/
def cellIndex (rc : Nat × Nat) : Nat := 21 * rc.1 + rc.2

theorem nodup_allCells : allCells.Nodup :=
  List.Nodup.of_map cellIndex (by
    rw [show allCells.map cellIndex = List.range 441 by decide +kernel]; exact List.nodup_range)

theorem get_maskCell (g : Grid) (rc : Nat × Nat) (r c : Nat) :
    (maskCell g rc).get r c =
      if (r, c) = rc ∧ r < 21 ∧ c < 21 ∧ isReserved r c = false then g.get r c ^^ maskBit r c else g.get r c := by
  obtain ⟨r0, c0⟩ := rc
  unfold maskCell
  by_cases hres : isReserved r0 c0 = true
  · rw [if_pos hres, if_neg]
    rintro ⟨h, -, -, hf⟩
    cases h
    simp [hres] at hf
  · rw [if_neg hres, Grid.get_set]
    by_cases h : r = r0 ∧ c = c0
    · obtain ⟨rfl, rfl⟩ := h
      simp [hres]
    · rw [if_neg (fun hh => h ⟨hh.1, hh.2.1⟩), if_neg]
      rintro ⟨hh, -⟩
      exact h (by simpa using hh)

theorem get_foldl_maskCell (l : List (Nat × Nat)) (hl : l.Nodup) (g : Grid) (r c : Nat) :
    (l.foldl maskCell g).get r c =
      if (r, c) ∈ l ∧ r < 21 ∧ c < 21 ∧ isReserved r c = false then g.get r c ^^ maskBit r c else g.get r c := by
  induction l generalizing g with
  | nil => simp
  | cons rc l ih =>
    rw [List.nodup_cons] at hl
    rw [List.foldl_cons, ih hl.2, get_maskCell]
    by_cases h : (r, c) = rc
    · subst h
      simp [hl.1]
    · simp [h]

/-- A cell after MASK's loop (R118, R119). -/
theorem get_maskGrid (g : Grid) {r c : Nat} (hr : r < 21) (hc : c < 21) :
    (maskGrid g).get r c = if isReserved r c then g.get r c else g.get r c ^^ maskBit r c := by
  rw [maskGrid, get_foldl_maskCell _ nodup_allCells]
  by_cases h : isReserved r c = true
  · simp [h]
  · simp [h, mem_allCells, hr, hc]

/-! ## The placement fill -/

theorem placeCell_fold (bs : Vector Bool 208) (n : Nat) (l : List (Nat × Nat)) (g : Grid) (i : Nat) :
    l.foldl (placeCell bs n) (g, i) =
      (((l.filter fun rc => !isReserved rc.1 rc.2).zipIdx i).foldl
          (fun g rci => g.set rci.1.1 rci.1.2 (if rci.2 < n then streamBit bs rci.2 else false)) g,
        i + (l.filter fun rc => !isReserved rc.1 rc.2).length) := by
  induction l generalizing g i with
  | nil => simp
  | cons rc l ih =>
    rw [List.foldl_cons]
    by_cases h : isReserved rc.1 rc.2 = true
    · rw [show placeCell bs n (g, i) rc = (g, i) by simp [placeCell, h], ih]
      simp [h]
    · rw [show placeCell bs n (g, i) rc = (g.set rc.1 rc.2 (if i < n then streamBit bs i else false), i + 1) by
        simp [placeCell, h], ih]
      simp [h, Nat.add_comm, Nat.add_assoc]

/-- The fill writes entry i of PLACE_ORDER with stream index i (R113, R115). -/
theorem placeGrid_eq (bs : Vector Bool 208) (n : Nat) (g : Grid) :
    placeGrid bs n g =
      g.writeAll (placeOrder.zipIdx.map fun rci => (rci.1.1, rci.1.2, if rci.2 < n then streamBit bs rci.2 else false)) := by
  rw [placeGrid, placeCell_fold, Grid.writeAll, List.foldl_map, placeOrder]

/-- When a cell outside column 6 is visited (R111, R112). -/
def visitIndex (rc : Nat × Nat) : Nat :=
  let k := if 6 < rc.2 then 20 - rc.2 else 19 - rc.2
  42 * (k / 2) + 2 * (20 - rc.1) + k % 2

theorem nodup_visitOrder : visitOrder.Nodup :=
  List.Nodup.of_map visitIndex (by
    rw [show visitOrder.map visitIndex = List.range 420 by decide +kernel]; exact List.nodup_range)

theorem pairSeq_eq : pairSeq =
    [(20, 19), (18, 17), (16, 15), (14, 13), (12, 11), (10, 9), (8, 7), (5, 4), (3, 2), (1, 0)] := by decide

/-- Every cell outside column 6 is visited (R111). -/
theorem mem_visitOrder {r c : Nat} (hr : r < 21) (hc : c < 21) (h6 : c ≠ 6) : (r, c) ∈ visitOrder := by
  have hp : ∃ p ∈ pairSeq, c = p.1 ∨ c = p.2 := by
    rw [pairSeq_eq]
    have : ∀ c, c < 21 → c ≠ 6 → ∃ p ∈ [(20, 19), (18, 17), (16, 15), (14, 13), (12, 11), (10, 9), (8, 7), (5, 4),
      (3, 2), (1, 0)], c = p.1 ∨ c = p.2 := by decide
    exact this c hc h6
  obtain ⟨p, hp, h⟩ := hp
  refine List.mem_flatMap.mpr ⟨p, hp, List.mem_flatMap.mpr ⟨20 - r, by simp; omega, ?_⟩⟩
  rcases h with rfl | rfl <;> simp <;> omega

theorem nodup_placeOrder : placeOrder.Nodup := nodup_visitOrder.filter _

theorem placeOrder_inside : ∀ rc ∈ placeOrder, rc.1 < 21 ∧ rc.2 < 21 := by decide +kernel

theorem placeOrder_free {rc : Nat × Nat} (h : rc ∈ placeOrder) : isReserved rc.1 rc.2 = false := by
  simpa using (List.mem_filter.mp h).2

/-- Writes to pairwise different cells: each cell holds its own write's value. -/
theorem get_writeAll_zipIdx (l : List (Nat × Nat)) (f : Nat → Bool) (hl : l.Nodup)
    (hin : ∀ rc ∈ l, rc.1 < 21 ∧ rc.2 < 21) (g : Grid) (k : Nat) :
    (∀ i rc, l[i]? = some rc →
      (g.writeAll ((l.zipIdx k).map fun rci => (rci.1.1, rci.1.2, f rci.2))).get rc.1 rc.2 = f (k + i)) ∧
    (∀ r c, (r, c) ∉ l →
      (g.writeAll ((l.zipIdx k).map fun rci => (rci.1.1, rci.1.2, f rci.2))).get r c = g.get r c) := by
  induction l generalizing g k with
  | nil => simp [Grid.writeAll]
  | cons x l ih =>
    rw [List.nodup_cons] at hl
    have hx := hin x (by simp)
    have ih' := ih hl.2 (fun rc h => hin rc (by simp [h])) (g.set x.1 x.2 (f k)) (k + 1)
    have step : g.writeAll (((x :: l).zipIdx k).map fun rci => (rci.1.1, rci.1.2, f rci.2)) =
        (g.set x.1 x.2 (f k)).writeAll ((l.zipIdx (k + 1)).map fun rci => (rci.1.1, rci.1.2, f rci.2)) := rfl
    rw [step]
    refine ⟨fun i rc h => ?_, fun r c h => ?_⟩
    · cases i with
      | zero =>
        obtain rfl : x = rc := by simpa using h
        rw [ih'.2 x.1 x.2 hl.1, Grid.get_set_same _ _ hx.1 hx.2, Nat.add_zero]
      | succ i =>
        rw [ih'.1 i rc (by simpa using h)]
        congr 1; omega
    · rw [List.mem_cons, not_or] at h
      rw [ih'.2 r c h.2, Grid.get_set_other _ _ h.1]

/-- A free cell after PLACE: entry i of PLACE_ORDER holds `BS[i] if i < BSLEN else 0` (R113). -/
theorem get_placeGrid_free (bs : Vector Bool 208) (n : Nat) (g : Grid) {i : Nat} {rc : Nat × Nat}
    (h : placeOrder[i]? = some rc) :
    (placeGrid bs n g).get rc.1 rc.2 = if i < n then streamBit bs i else false := by
  rw [placeGrid_eq]
  simpa using (get_writeAll_zipIdx placeOrder (fun i => if i < n then streamBit bs i else false) nodup_placeOrder
    placeOrder_inside g 0).1 i rc h

/-- A reserved cell after PLACE keeps its value (R112). -/
theorem get_placeGrid_reserved (bs : Vector Bool 208) (n : Nat) (g : Grid) {r c : Nat}
    (h : isReserved r c = true) : (placeGrid bs n g).get r c = g.get r c := by
  rw [placeGrid_eq]
  refine (get_writeAll_zipIdx placeOrder (fun i => if i < n then streamBit bs i else false) nodup_placeOrder
    placeOrder_inside g 0).2 r c fun hm => ?_
  simp [placeOrder_free hm] at h

end Sys2Proof.Machine
end

