-- ==== Sys2Proof/Laws/Tables.lean ====
section
/-! SUPPORT. The machine's predicates and write lists against the spec's tables: the reserved map (R70), PLACE_ORDER
(R115), and the last write to each cell by PSTRUCT (R80) and by PFORMAT (R88). -/

namespace Sys2Proof.Machine

set_option Elab.async false

theorem isReserved_table : ∀ r, r < 21 → ∀ c, c < 21 → isReserved r c = reservedCell r c := by decide +kernel

/-- The predicate is the map of R70. -/
theorem isReserved_eq {r c : Nat} (hr : r < 21) (hc : c < 21) : isReserved r c = reservedCell r c :=
  isReserved_table r hr c hc

/-- The traversal visits the free cells in the order R115 lists. -/
theorem placeOrder_eq : placeOrder = placeTable := by decide +kernel

/-- Every free cell stands in PLACE_ORDER, and no reserved one does (R111, R112). -/
theorem placeTable_covers {r c : Nat} (hr : r < 21) (hc : c < 21) : reservedCell r c = false ↔ (r, c) ∈ placeTable := by
  rw [← isReserved_eq hr hc, ← placeOrder_eq]
  refine ⟨fun h => List.mem_filter.mpr ⟨mem_visitOrder hr hc ?_, by simp [h]⟩, placeOrder_free⟩
  rintro rfl
  have : ∀ r, r < 21 → isReserved r 6 = true := by decide
  simp [this r hr] at h

/-- The value PSTRUCT writes to a cell, by its class; none where it writes nothing (R76 to R79). -/
def structValue (r c : Nat) : Option Bool :=
  if isFinder r c then some (finder (if 14 ≤ r then r - 14 else r) (if 14 ≤ c then c - 14 else c))
  else if isSeparator r c then some false
  else if isTiming r c then some (if r = 6 then c % 2 == 0 else r % 2 == 0)
  else if isDarkModule r c then some true
  else none

theorem lastWrite_structWrites :
    ∀ r, r < 21 → ∀ c, c < 21 → lastWrite structWrites r c = structValue r c := by decide +kernel

/-- A cell after PSTRUCT's writes (R80). -/
theorem get_structWrites (g : Grid) {r c : Nat} (hr : r < 21) (hc : c < 21) :
    (g.writeAll structWrites).get r c = (structValue r c).getD (g.get r c) := by
  rw [Grid.get_writeAll g _ hr hc, lastWrite_structWrites r hr c hc]

/-- From a light grid PSTRUCT gives S1 (R80). -/
theorem structValue_s1 : ∀ r, r < 21 → ∀ c, c < 21 → (structValue r c).getD false = s1Cell r c := by decide +kernel

/-- The last format bit FMT_MAP writes to a cell. -/
def lastFormatBit (r c : Nat) : Option Nat :=
  fmtMap.foldl (fun acc m => if r == m.1 && c == m.2.1 then some m.2.2 else acc) none

theorem lastFormatBit_table : ∀ r, r < 21 → ∀ c, c < 21 → lastFormatBit r c = formatBitAt r c := by decide +kernel

theorem lastWrite_map_bit (l : List (Nat × Nat × Nat)) (w : BitVec 15) (r c : Nat) (o : Option Nat) :
    (l.map fun m => (m.1, m.2.1, w.getLsbD m.2.2)).foldl
        (fun acc (x : CellWrite) => if r == x.1 && c == x.2.1 then some x.2.2 else acc) (o.map w.getLsbD) =
      (l.foldl (fun acc m => if r == m.1 && c == m.2.1 then some m.2.2 else acc) o).map w.getLsbD := by
  induction l generalizing o with
  | nil => rfl
  | cons m l ih =>
    simp only [List.map_cons, List.foldl_cons]
    rw [← ih]
    congr 1
    split <;> rfl

/-- A cell after PFORMAT's writes, for any format word (R88(a)). -/
theorem get_formatWrites (g : Grid) (w : BitVec 15) {r c : Nat} (hr : r < 21) (hc : c < 21) :
    (g.writeAll (formatWrites w)).get r c =
      match formatBitAt r c with
      | some k => w.getLsbD k
      | none => g.get r c := by
  have h : lastWrite (formatWrites w) r c = (formatBitAt r c).map w.getLsbD := by
    rw [← lastFormatBit_table r hr c hc]
    exact lastWrite_map_bit fmtMap w r c none
  rw [Grid.get_writeAll g _ hr hc, h]
  cases formatBitAt r c <;> rfl

/-- Stage 2 writes reserved cells only (R87). -/
theorem formatBitAt_reserved :
    ∀ r, r < 21 → ∀ c, c < 21 → (formatBitAt r c).isSome = isFormat r c := by decide +kernel

end Sys2Proof.Machine
end

