-- ==== Sys2Proof/Laws/Exec.lean ====
section
/-! SUPPORT. What each command's body does, once: its equation where it completes, its equation where it raises, and the
case analysis of ENCODE and GEN that later proofs cite instead of unfolding them. -/

namespace Sys2Proof.Machine

set_option Elab.async false

/-- The body that an instruction's meaning runs. -/
def bodyOf : Instr → State → Run
  | .nop, s => nopRun s
  | .clr, s => clrRun s
  | .pstruct, s => pstructRun s
  | .pformat, s => pformatRun config s
  | .encode, s => encodeRun s
  | .ecccat, s => ecccatRun config s
  | .place, s => placeRun s
  | .mask, s => maskRun s
  | .gen, s => genRun config s
  | .cstart, s => cstartRun s
  | .cpush cp, s => cpushRun cp s
  | .cnull, s => cnullRun s
  | .qrsv r c, s => qrsvRun r c s

theorem exec_eq_bodyOf (i : Instr) (s : State) : exec i s = (bodyOf i s).outcome := by cases i <;> rfl

/-! ## The step commands -/

theorem pstructRun_of_stg {s : State} (h : s.stg = .alloc) :
    pstructRun s = .completed { s with g := s.g.writeAll structWrites, stg := .struct } := requireStage_of_eq _ h

theorem pformatRun_of_stg (cfg : Config) {s : State} (h : s.stg = .struct) :
    pformatRun cfg s = .completed { s with g := s.g.writeAll (formatWrites cfg.formatWord), stg := .format } :=
  requireStage_of_eq _ h

theorem ecccatRun_of_stg (cfg : Config) {s : State} (h : s.stg = .encoded) :
    ecccatRun cfg s = .completed { s with bs := concatStream cfg.eccFn s.bs, bslen := 208, stg := .concat } :=
  requireStage_of_eq _ h

theorem placeRun_of_stg {s : State} (h : s.stg = .concat) :
    placeRun s = .completed { s with g := placeGrid s.bs s.bslen.val s.g, stg := .placed } := requireStage_of_eq _ h

theorem maskRun_of_stg {s : State} (h : s.stg = .placed) :
    maskRun s = .completed { s with g := maskGrid s.g, stg := .done } := requireStage_of_eq _ h

/-! ## ENCODE -/

theorem encodeRun_null {s : State} (h : s.stg = .format) (hv : s.cvalid = false) :
    encodeRun s = .raised (raise .invalidInput s) := by
  rw [encodeRun, requireStage_of_eq _ h]; simp [hv]

theorem encodeRun_over {s : State} (h : s.stg = .format) (hv : s.cvalid = true) (hl : s.clen.val = 18) :
    encodeRun s = .raised (raise .capacityExceeded s) := by
  rw [encodeRun, requireStage_of_eq _ h]; simp [hv, hl, overCapacity]

/-- R98: 12 + 8*CLEN > 152 exactly when CLEN >= 18. -/
theorem overCapacity_of_le {n : Nat} (h : n ≤ 17) : overCapacity n = false := by
  simp only [overCapacity, decide_eq_false_iff_not]; omega

theorem encodeRun_fits {s : State} (h : s.stg = .format) (hv : s.cvalid = true) (hl : s.clen.val ≤ 17) :
    encodeRun s = storeStream (encodeStream s.cbuf s.clen.val ⟨s.bs, s.bslen.val⟩) s := by
  rw [encodeRun, requireStage_of_eq _ h]; simp [hv, overCapacity_of_le hl]

/-- The bits ENCODE leaves in BS when it starts from an empty stream over the cells `bs`, for n characters. -/
def encodedStream (bs : Vector Bool 208) (n : Nat) (cbuf : Vector Byte 17) : Vector Bool 208 :=
  (Stream.pushBits ⟨bs, 0⟩ (encodedBits n (contentByte cbuf))).bits

theorem encodeRun_completed {s : State} (h : s.stg = .format) (hb : s.bslen = 0) (hv : s.cvalid = true)
    (hl : s.clen.val ≤ 17) :
    encodeRun s =
      .completed { s with bs := encodedStream s.bs s.clen.val s.cbuf, bslen := 152, stg := .encoded } := by
  have h0 : s.bslen.val = 0 := by rw [hb]; rfl
  have hlen : (Stream.pushBits ⟨s.bs, 0⟩ (encodedBits s.clen.val (contentByte s.cbuf))).len = 152 := by
    rw [pushBits_len, encodedBits_length hl]
  rw [encodeRun_fits h hv hl, h0, encodeStream_eq _ hl, storeStream, dif_pos (by rw [hlen]; omega), encodedStream]
  congr 2
  exact Fin.ext hlen

theorem encodedStream_holdsData (bs : Vector Bool 208) {n : Nat} (hn : n ≤ 17) (cbuf : Vector Byte 17) :
    HoldsData (encodedStream bs n cbuf) n (contentByte cbuf) := by
  intro i hi
  rw [encodedStream, streamBit_pushBits _ _ _ (by omega)]
  have := encodedBits_length hn (contentByte cbuf)
  simp [List.getElem?_eq_getElem (show i < (encodedBits n (contentByte cbuf)).length by omega)]

theorem encodedStream_rest (bs : Vector Bool 208) {n : Nat} (hn : n ≤ 17) (cbuf : Vector Byte 17) {i : Nat}
    (h1 : 152 ≤ i) (h2 : i < 208) : streamBit (encodedStream bs n cbuf) i = streamBit bs i := by
  rw [encodedStream, streamBit_pushBits _ _ _ h2]
  simp [List.getElem?_eq_none (show (encodedBits n (contentByte cbuf)).length ≤ i by
    rw [encodedBits_length hn]; omega)]

/-- Everything ENCODE can do. -/
theorem encodeRun_cases (s : State) :
    (s.stg ≠ .format ∧ encodeRun s = .raised (raise .illegalCommand s)) ∨
    (s.stg = .format ∧ s.cvalid = false ∧ encodeRun s = .raised (raise .invalidInput s)) ∨
    (s.stg = .format ∧ s.cvalid = true ∧ s.clen.val = 18 ∧ encodeRun s = .raised (raise .capacityExceeded s)) ∨
    (s.stg = .format ∧ s.cvalid = true ∧ s.clen.val ≤ 17 ∧
      ((∃ bs bslen, encodeRun s = .completed { s with bs := bs, bslen := bslen, stg := .encoded }) ∨
       (s.bslen ≠ 0 ∧ encodeRun s = .stopped .streamOverrun))) := by
  by_cases h : s.stg = .format
  · rcases Bool.eq_false_or_eq_true s.cvalid with hv | hv
    · by_cases hl : s.clen.val = 18
      · exact .inr (.inr (.inl ⟨h, hv, hl, encodeRun_over h hv hl⟩))
      · have hl' : s.clen.val ≤ 17 := by have := s.clen.isLt; omega
        refine .inr (.inr (.inr ⟨h, hv, hl', ?_⟩))
        by_cases hb : s.bslen = 0
        · exact .inl ⟨_, _, encodeRun_completed h hb hv hl'⟩
        · rw [encodeRun_fits h hv hl', storeStream]
          split
          · exact .inl ⟨_, _, rfl⟩
          · exact .inr ⟨hb, rfl⟩
    · exact .inr (.inl ⟨h, hv, encodeRun_null h hv⟩)
  · exact .inl ⟨h, requireStage_of_ne _ h⟩

/-! ## GEN -/

/-- The state GEN hands to its ENCODE part. -/
def genBeforeEncode (cfg : Config) (s : State) : State :=
  { s with g := (Grid.light.writeAll structWrites).writeAll (formatWrites cfg.formatWord), bs := zeroStream, bslen := 0,
           err := ErrMask.none, stg := .format }

section BeforeEncode
variable (cfg : Config) (s : State)
@[simp] theorem genBeforeEncode_bs : (genBeforeEncode cfg s).bs = zeroStream := by rw [genBeforeEncode]
@[simp] theorem genBeforeEncode_bslen : (genBeforeEncode cfg s).bslen = 0 := by rw [genBeforeEncode]
@[simp] theorem genBeforeEncode_stg : (genBeforeEncode cfg s).stg = .format := by rw [genBeforeEncode]
@[simp] theorem genBeforeEncode_err : (genBeforeEncode cfg s).err = ErrMask.none := by rw [genBeforeEncode]
@[simp] theorem genBeforeEncode_cbuf : (genBeforeEncode cfg s).cbuf = s.cbuf := by rw [genBeforeEncode]
@[simp] theorem genBeforeEncode_clen : (genBeforeEncode cfg s).clen = s.clen := by rw [genBeforeEncode]
@[simp] theorem genBeforeEncode_cvalid : (genBeforeEncode cfg s).cvalid = s.cvalid := by rw [genBeforeEncode]
theorem genBeforeEncode_g :
    (genBeforeEncode cfg s).g = (Grid.light.writeAll structWrites).writeAll (formatWrites cfg.formatWord) := by
  rw [genBeforeEncode]
end BeforeEncode

theorem genRun_eq (cfg : Config) (s : State) :
    genRun cfg s =
      (((encodeRun (genBeforeEncode cfg s)).andThen (ecccatRun cfg)).andThen placeRun).andThen maskRun := by
  rw [genRun, clrRun, andThen_completed, pstructRun_of_stg rfl, andThen_completed, pformatRun_of_stg cfg rfl,
    andThen_completed, genBeforeEncode]

/-- The stream of a successful GEN, from the content alone. -/
def genStream (cfg : Config) (n : Nat) (cbuf : Vector Byte 17) : Vector Bool 208 :=
  concatStream cfg.eccFn (encodedStream zeroStream n cbuf)

/-- S2 as the machine builds it. -/
def s2Grid (cfg : Config) : Grid := (Grid.light.writeAll structWrites).writeAll (formatWrites cfg.formatWord)

/-- The grid of a successful GEN, from the content alone. -/
def genGrid (cfg : Config) (n : Nat) (cbuf : Vector Byte 17) : Grid :=
  maskGrid (placeGrid (genStream cfg n cbuf) 208 (s2Grid cfg))

theorem genRun_fits (cfg : Config) {s : State} (hv : s.cvalid = true) (hl : s.clen.val ≤ 17) :
    genRun cfg s = .completed
      { s with g := genGrid cfg s.clen.val s.cbuf, bs := genStream cfg s.clen.val s.cbuf, bslen := 208,
               err := ErrMask.none, stg := .done } := by
  rw [genRun_eq, encodeRun_completed (s := genBeforeEncode cfg s) (by simp) (by simp) (by simpa using hv) (by simpa using hl), andThen_completed,
    ecccatRun_of_stg cfg rfl, andThen_completed, placeRun_of_stg rfl, andThen_completed, maskRun_of_stg rfl]
  simp only [genGrid, genStream, s2Grid, genBeforeEncode, show (208 : Fin 209).val = 208 from rfl]

theorem genRun_null (cfg : Config) {s : State} (hv : s.cvalid = false) :
    genRun cfg s = .raised (abort { s with err := ⟨true, false, false⟩ }) := by
  rw [genRun_eq, encodeRun_null (s := genBeforeEncode cfg s) (by simp) (by simpa using hv), andThen_raised, andThen_raised, andThen_raised,
    raise_invalidInput]
  simp only [genBeforeEncode, abort, ErrMask.none]

theorem genRun_over (cfg : Config) {s : State} (hv : s.cvalid = true) (hl : s.clen.val = 18) :
    genRun cfg s = .raised (abort { s with err := ⟨false, true, false⟩ }) := by
  rw [genRun_eq, encodeRun_over (s := genBeforeEncode cfg s) (by simp) (by simpa using hv) (by simpa using hl), andThen_raised, andThen_raised, andThen_raised,
    raise_capacityExceeded]
  simp only [genBeforeEncode, abort, ErrMask.none]

/-- Everything GEN can do. -/
theorem genRun_cases (cfg : Config) (s : State) :
    (s.cvalid = false ∧ genRun cfg s = .raised (abort { s with err := ⟨true, false, false⟩ })) ∨
    (s.cvalid = true ∧ s.clen.val = 18 ∧ genRun cfg s = .raised (abort { s with err := ⟨false, true, false⟩ })) ∨
    (s.cvalid = true ∧ s.clen.val ≤ 17 ∧
      genRun cfg s = .completed
        { s with g := genGrid cfg s.clen.val s.cbuf, bs := genStream cfg s.clen.val s.cbuf, bslen := 208,
                 err := ErrMask.none, stg := .done }) := by
  rcases Bool.eq_false_or_eq_true s.cvalid with hv | hv
  · by_cases hl : s.clen.val = 18
    · exact .inr (.inl ⟨hv, hl, genRun_over cfg hv hl⟩)
    · have hl' : s.clen.val ≤ 17 := by have := s.clen.isLt; omega
      exact .inr (.inr ⟨hv, hl', genRun_fits cfg hv hl'⟩)
  · exact .inl ⟨hv, genRun_null cfg hv⟩

theorem genStream_holdsData (cfg : Config) {n : Nat} (hn : n ≤ 17) (cbuf : Vector Byte 17) :
    HoldsData (genStream cfg n cbuf) n (contentByte cbuf) := by
  intro i hi
  rw [genStream, streamBit_concat_data _ _ hi]
  exact encodedStream_holdsData zeroStream hn cbuf i hi

theorem holdsEcc_concat (f : Vector Bool 152 → Vector Bool 56) (bs : Vector Bool 208) : HoldsEcc f (concatStream f bs) := by
  intro j h
  rw [streamBit_concat_ecc f bs h, dataBits_concat]

theorem placeTable_bounds {i : Nat} {rc : Nat × Nat} (h : placeTable[i]? = some rc) :
    rc.1 < 21 ∧ rc.2 < 21 ∧ isReserved rc.1 rc.2 = false ∧ i < 224 := by
  rw [← placeOrder_eq] at h
  have hm := List.mem_of_getElem? h
  have hb := placeOrder_inside rc hm
  refine ⟨hb.1, hb.2, placeOrder_free hm, ?_⟩
  have hlen : placeOrder.length = 224 := by rw [placeOrder_eq]; decide +kernel
  rw [← hlen]
  exact (List.getElem?_eq_some_iff.mp h).1

/-- A cell of S2 (R88). -/
theorem get_s2Grid (cfg : Config) {r c : Nat} (hr : r < 21) (hc : c < 21) :
    (s2Grid cfg).get r c = s2Cell cfg.formatWord r c := by
  rw [s2Grid, get_formatWrites _ _ hr hc, get_structWrites _ hr hc, Grid.get_light, structValue_s1 r hr c hc]
  rfl

/-- A free cell of the final grid (R120). -/
theorem get_genGrid_free (cfg : Config) (n : Nat) (cbuf : Vector Byte 17) {i : Nat} {rc : Nat × Nat}
    (h : placeTable[i]? = some rc) :
    (genGrid cfg n cbuf).get rc.1 rc.2 = (placedBit (genStream cfg n cbuf) i ^^ ((rc.1 + rc.2) % 2 == 0)) := by
  obtain ⟨hr, hc, hf, -⟩ := placeTable_bounds h
  rw [genGrid, get_maskGrid _ hr hc, if_neg (by simp [hf]), get_placeGrid_free _ _ _ (by rw [placeOrder_eq]; exact h)]
  rfl

/-- A reserved cell of the final grid (R120, R127(b)). -/
theorem get_genGrid_reserved (cfg : Config) (n : Nat) (cbuf : Vector Byte 17) {r c : Nat} (hr : r < 21) (hc : c < 21)
    (h : reservedCell r c = true) : (genGrid cfg n cbuf).get r c = s2Cell cfg.formatWord r c := by
  have h' : isReserved r c = true := by rw [isReserved_eq hr hc, h]
  rw [genGrid, get_maskGrid _ hr hc, if_pos h', get_placeGrid_reserved _ _ _ h', get_s2Grid _ hr hc]

/-! ## What a command does not look at -/

/-- A change of state applied to whatever a command's body ends in. -/
def Run.map (f : State → State) : Run → Run
  | .completed s => .completed (f s)
  | .raised s => .raised (f s)
  | .stopped e => .stopped e

/-- A command neither reads nor writes the two host lists. -/
theorem bodyOf_withPort (i : Instr) (s : State) (p : List PortEvent) (a : List Word) :
    bodyOf i { s with pending := p, answers := a } =
      (bodyOf i s).map fun t => { t with pending := p, answers := a } := by
  have hraise : ∀ c, raise c { s with pending := p, answers := a } =
      { raise c s with pending := p, answers := a } := by intro c; cases c <;> rfl
  cases i
  case nop | clr | cstart | cnull => rfl
  case gen =>
    simp only [bodyOf]
    rcases genRun_cases config s with ⟨hv, h⟩ | ⟨hv, hl, h⟩ | ⟨hv, hl, h⟩
    · rw [h, genRun_null config (s := { s with pending := p, answers := a }) hv]; rfl
    · rw [h, genRun_over config (s := { s with pending := p, answers := a }) hv hl]; rfl
    · rw [h, genRun_fits config (s := { s with pending := p, answers := a }) hv hl]; simp only [Run.map]
  case encode =>
    simp only [bodyOf, encodeRun, requireStage, storeStream]
    split <;> [skip; exact congrArg Run.raised (hraise _)]
    split <;> [skip; exact congrArg Run.raised (hraise _)]
    split <;> [exact congrArg Run.raised (hraise _); skip]
    split <;> rfl
  case cpush cp =>
    simp only [bodyOf, cpushRun]
    split <;> [skip; exact congrArg Run.raised (hraise _)]
    split <;> rfl
  case qrsv r c =>
    simp only [bodyOf, qrsvRun]
    split <;> [rfl; exact congrArg Run.raised (hraise _)]
  all_goals
    simp only [bodyOf, pstructRun, pformatRun, ecccatRun, placeRun, maskRun, requireStage]
    split <;> simp only [Run.map, hraise]

/-- Running steps one by one. -/
theorem run_succ_of_step {s t : State} (k : Nat) (h : step s = .next t) : core.run (k + 1) s = core.run k t := by
  have h' : core.step s = .next t := h
  simp only [Host.Core.run, h']

end Sys2Proof.Machine
end

