-- ==== Sys2Proof/Laws/Effects.lean ====
section
/-! SUPPORT. What a command that ends in a next state did: one constructor per way, with its guard. Proofs about all
commands do `cases effect_of_exec h` and never unfold a meaning. -/

namespace Sys2Proof.Machine

theorem qrsvRun_off {r c : Nat} (s : State) (h : 20 < r ∨ 20 < c) :
    qrsvRun r c s = .raised (raise .illegalCommand s) := by
  rw [qrsvRun, if_neg (by simp [onGrid]; omega)]

theorem qrsvRun_on {r c : Nat} (s : State) (h : r ≤ 20 ∧ c ≤ 20) :
    qrsvRun r c s = .completed { s with res := isReserved r c } := by
  rw [qrsvRun, if_pos (by simp [onGrid]; omega)]

/-- A misused command raises IllegalCommand (R131). -/
theorem bodyOf_misused {i : Instr} {s : State} (h : misused i s = true) :
    bodyOf i s = .raised (raise .illegalCommand s) := by
  cases i
  case qrsv r c => exact qrsvRun_off s (by simpa [misused] using h)
  case cpush cp => simp only [misused, Bool.not_eq_true'] at h; simp [bodyOf, cpushRun, h]
  case nop | clr | gen | cstart | cnull => simp [misused] at h
  all_goals
    simp only [misused, bne_iff_ne] at h
    simp only [bodyOf, pstructRun, pformatRun, encodeRun, ecccatRun, placeRun, maskRun]
    rw [requireStage_of_ne _ h]

/-- The ways a command can end in a next state. -/
inductive Effect : Instr → State → State → Prop
  | illegal (i : Instr) (s : State) : misused i s = true → Effect i s { s with err := { s.err with ill := true } }
  | nop (s : State) : Effect .nop s s
  | clr (s : State) :
      Effect .clr s { s with g := Grid.light, bs := zeroStream, bslen := 0, err := ErrMask.none, stg := .alloc }
  | pstruct (s : State) : s.stg = .alloc → Effect .pstruct s { s with g := s.g.writeAll structWrites, stg := .struct }
  | pformat (s : State) : s.stg = .struct →
      Effect .pformat s { s with g := s.g.writeAll (formatWrites config.formatWord), stg := .format }
  | encode (s : State) (bs : Vector Bool 208) (n : Fin 209) : s.stg = .format → s.cvalid = true → s.clen.val ≤ 17 →
      encodeRun s = .completed { s with bs := bs, bslen := n, stg := .encoded } →
      Effect .encode s { s with bs := bs, bslen := n, stg := .encoded }
  | encodeNull (s : State) : s.stg = .format → s.cvalid = false →
      Effect .encode s (abort { s with err := { s.err with inv := true } })
  | encodeOver (s : State) : s.stg = .format → s.cvalid = true → s.clen.val = 18 →
      Effect .encode s (abort { s with err := { s.err with cap := true } })
  | ecccat (s : State) : s.stg = .encoded →
      Effect .ecccat s { s with bs := concatStream config.eccFn s.bs, bslen := 208, stg := .concat }
  | place (s : State) : s.stg = .concat →
      Effect .place s { s with g := placeGrid s.bs s.bslen.val s.g, stg := .placed }
  | mask (s : State) : s.stg = .placed → Effect .mask s { s with g := maskGrid s.g, stg := .done }
  | gen (s : State) : s.cvalid = true → s.clen.val ≤ 17 →
      Effect .gen s
        { s with g := genGrid config s.clen.val s.cbuf, bs := genStream config s.clen.val s.cbuf, bslen := 208, err := ErrMask.none, stg := .done }
  | genNull (s : State) : s.cvalid = false → Effect .gen s (abort { s with err := ⟨true, false, false⟩ })
  | genOver (s : State) : s.cvalid = true → s.clen.val = 18 → Effect .gen s (abort { s with err := ⟨false, true, false⟩ })
  | cstart (s : State) : Effect .cstart s { s with cvalid := true, clen := 0, cbuf := zeroContent }
  | cnull (s : State) : Effect .cnull s { s with cvalid := false, clen := 0, cbuf := zeroContent }
  | cpush (cp : BitVec 24) (s : State) (h : s.clen.val ≤ 16) : s.cvalid = true →
      Effect (.cpush cp) s { s with cbuf := s.cbuf.set s.clen.val (lowByte cp) (by omega), clen := ⟨s.clen.val + 1, by omega⟩ }
  | cpushFull (cp : BitVec 24) (s : State) : s.cvalid = true → 16 < s.clen.val →
      Effect (.cpush cp) s { s with clen := 18 }
  | qrsv (r c : Nat) (s : State) : r ≤ 20 → c ≤ 20 → Effect (.qrsv r c) s { s with res := isReserved r c }

theorem next_inj {s t : State} (h : (Host.Outcome.next s : Host.Outcome State Fault Refusal) = .next t) : s = t :=
  Host.Outcome.next.inj h

/-- Everything a command can do when it ends in a next state. -/
theorem effect_of_exec {i : Instr} {s t : State} (he : exec i s = .next t) : Effect i s t := by
  rw [exec_eq_bodyOf] at he
  by_cases h : misused i s = true
  · rw [bodyOf_misused h] at he
    rw [← next_inj he]
    exact .illegal i s h
  · have is : ∀ {b u}, bodyOf i s = b → b.outcome = .next u → t = u := by
      intro b u h1 h2; rw [h1, h2] at he; exact (next_inj he).symm
    simp only [Bool.not_eq_true] at h
    cases i
    case nop => rw [is rfl rfl]; exact .nop s
    case clr => rw [is rfl rfl]; exact .clr s
    case cstart => rw [is rfl rfl]; exact .cstart s
    case cnull => rw [is rfl rfl]; exact .cnull s
    case pstruct => simp [misused] at h; rw [is (pstructRun_of_stg h) rfl]; exact .pstruct s h
    case pformat => simp [misused] at h; rw [is (pformatRun_of_stg _ h) rfl]; exact .pformat s h
    case ecccat => simp [misused] at h; rw [is (ecccatRun_of_stg _ h) rfl]; exact .ecccat s h
    case place => simp [misused] at h; rw [is (placeRun_of_stg h) rfl]; exact .place s h
    case mask => simp [misused] at h; rw [is (maskRun_of_stg h) rfl]; exact .mask s h
    case encode =>
      simp [misused] at h
      rcases encodeRun_cases s with ⟨h1, _⟩ | ⟨_, h2, h3⟩ | ⟨_, h2, h2', h3⟩ | ⟨_, h2, h2', ⟨bs, n, h3⟩ | ⟨_, h3⟩⟩
      · exact absurd h h1
      · rw [is h3 rfl]; exact .encodeNull s h h2
      · rw [is h3 rfl]; exact .encodeOver s h h2 h2'
      · rw [is h3 rfl]; exact .encode s bs n h h2 h2' h3
      · rw [bodyOf, h3] at he; cases he
    case gen =>
      rcases genRun_cases config s with ⟨h2, h3⟩ | ⟨h2, h2', h3⟩ | ⟨h2, h2', h3⟩
      · rw [is h3 rfl]; exact .genNull s h2
      · rw [is h3 rfl]; exact .genOver s h2 h2'
      · rw [is h3 rfl]; exact .gen s h2 h2'
    case cpush cp =>
      simp [misused] at h
      by_cases hc : s.clen.val ≤ 16
      · rw [is (u := _) (show cpushRun cp s = .completed _ by rw [cpushRun, if_pos h, dif_pos hc]) rfl]
        exact .cpush cp s hc h
      · rw [is (u := _) (show cpushRun cp s = .completed _ by rw [cpushRun, if_pos h, dif_neg hc]) rfl]
        exact .cpushFull cp s h (by omega)
    case qrsv r c =>
      simp [misused] at h
      rw [is (qrsvRun_on s h) rfl]; exact .qrsv r c s h.1 h.2

end Sys2Proof.Machine
end

