-- ==== Sys2Proof/Laws/PerInstr.lean ====
section
/-! SUPPORT. A lemma per constructor: the number that each instruction's word is, by the match column of R59 and the
operand fields of R51. -/

namespace Sys2Proof.Laws.WordNumber

/-- The word of an instruction as a number (R51, R59). -/
def value : Instr → Nat
  | .nop => 0x00000000
  | .clr => 0x01000000
  | .pstruct => 0x02000000
  | .pformat => 0x03000000
  | .encode => 0x04000000
  | .ecccat => 0x05000000
  | .place => 0x06000000
  | .mask => 0x07000000
  | .gen => 0x08000000
  | .cstart => 0x10000000
  | .cpush cp => 0x11000000 + cp.toNat
  | .cnull => 0x12000000
  | .qrsv r c => 0x20000000 + 256 * (r % 32) + c % 32

/-- What the family says of an instruction. -/
def Statement (i : Instr) : Prop := (encode i).toNat = value i

theorem nop : Statement .nop := by unfold Statement; decide
theorem clr : Statement .clr := by unfold Statement; decide
theorem pstruct : Statement .pstruct := by unfold Statement; decide
theorem pformat : Statement .pformat := by unfold Statement; decide
theorem encode : Statement .encode := by unfold Statement; decide
theorem ecccat : Statement .ecccat := by unfold Statement; decide
theorem place : Statement .place := by unfold Statement; decide
theorem mask : Statement .mask := by unfold Statement; decide
theorem gen : Statement .gen := by unfold Statement; decide
theorem cstart : Statement .cstart := by unfold Statement; decide
theorem cpush (cp : BitVec 24) : Statement (.cpush cp) := by
  unfold Statement
  rw [encode_toNat]
  simp only [Instr.op, Instr.operandBits, value, BitVec.toNat_ofNat]
  omega
theorem cnull : Statement .cnull := by unfold Statement; decide
theorem qrsv (r c : Nat) : Statement (.qrsv r c) := by
  unfold Statement
  rw [encode_toNat, qrsv_operand_toNat]
  show 0x20 * 2 ^ 24 + _ = 0x20000000 + 256 * (r % 32) + c % 32
  omega

/-- The family for every instruction. -/
theorem all (i : Instr) : Statement i := by
  cases i
  case nop => exact nop
  case clr => exact clr
  case pstruct => exact pstruct
  case pformat => exact pformat
  case encode => exact encode
  case ecccat => exact ecccat
  case place => exact place
  case mask => exact mask
  case gen => exact gen
  case cstart => exact cstart
  case cpush cp => exact cpush cp
  case cnull => exact cnull
  case qrsv r c => exact qrsv r c

end Sys2Proof.Laws.WordNumber
end

