-- ==== Sys2Proof/Laws/Registers.lean ====
section
/-! SUPPORT. What each readable register holds: STATUS as a number, the bits of the grid rows and of the stream words,
and which register numbers are mapped. -/

namespace Sys2Proof.Machine

theorem getLsbD_wordOfBits (f : Nat → Bool) {k : Nat} (h : k < 32) : (wordOfBits f).getLsbD k = f k := by
  simp [wordOfBits, h]

/-- Bit c of GROWr (R38). -/
theorem getLsbD_growWord (g : Grid) (r : Nat) {c : Nat} (h : c < 32) : (growWord g r).getLsbD c = g.get r c :=
  getLsbD_wordOfBits _ h

/-- Stream bit i is bit 31 - (i mod 32) of word i div 32 (R37). -/
theorem getLsbD_bswWord (bs : Vector Bool 208) (i : Nat) :
    (bswWord bs (i / 32)).getLsbD (31 - i % 32) = streamBit bs i := by
  rw [bswWord, getLsbD_wordOfBits _ (by omega)]
  congr 1
  omega

/-- STATUS as a number (R24). -/
theorem statusWord_toNat (s : State) :
    (statusWord s).toNat =
      s.bslen.val * 65536 + s.clen.val * 256 + s.err.ill.toNat * 128 + s.err.cap.toNat * 64 + s.err.inv.toNat * 32 +
        s.cvalid.toNat * 16 + (doneFlag s).toNat * 8 + s.stg.number.toNat := by
  have h1 := s.bslen.isLt
  have h2 := s.clen.isLt
  unfold statusWord ErrMask.bits
  simp only [toNat_append_add, BitVec.toNat_ofNat, BitVec.toNat_ofBool]
  norm_num
  omega

/-- The mapped register numbers (R33). -/
theorem readRegister_eq_none_iff (cfg : Config) (s : State) (n : Nat) :
    readRegister cfg s n = none ↔ ¬(n ≤ 0x03 ∨ (0x20 ≤ n ∧ n ≤ 0x34) ∨ (0x40 ≤ n ∧ n ≤ 0x46)) := by
  unfold readRegister
  repeat' split
  all_goals simp
  all_goals omega

theorem readRegister_grow (cfg : Config) (s : State) {r : Nat} (h : r < 21) :
    readRegister cfg s (0x20 + r) = some (growWord s.g r) := by
  unfold readRegister
  rw [if_neg (by omega), if_neg (by omega), if_neg (by omega), if_neg (by omega), if_pos (by omega)]
  simp

theorem readRegister_bsw (cfg : Config) (s : State) {k : Nat} (h : k < 7) :
    readRegister cfg s (0x40 + k) = some (bswWord s.bs k) := by
  unfold readRegister
  rw [if_neg (by omega), if_neg (by omega), if_neg (by omega), if_neg (by omega), if_neg (by omega),
    if_pos (by omega)]
  simp

end Sys2Proof.Machine
end

