-- ==== Sys2Proof/Tests/Slice0.lean ====
section
/-! SUPPORT. Own tests: refused ill-formed terms, words written out from the encodings, one step per command against the
spec's vectors (95_test_vectors) or a hand calculation from its rules, and a witness for the hypotheses of every
statement. -/

namespace Sys2Proof.Tests

set_option Elab.async false

open Sys2Proof.Machine

/-! ## Helpers -/

/-- What a next state shows; nothing for a fault or a refusal. -/
def seen {α : Type} (f : State → α) : Host.Outcome State Fault Refusal → Option α
  | .next t => some (f t)
  | .fault _ => none
  | .refused _ => none

/-- The reset state at another stage. -/
def atStage (k : Stage) : State := { State.reset with stg := k }

/-- A content of n characters that begins with these bytes. -/
def withContent (n : Fin 19) (b : List Byte) (s : State) : State :=
  { s with cvalid := true, clen := n, cbuf := Vector.ofFn fun i => b.getD i.val 0#8 }

/-- The content "HI". -/
def hi (s : State) : State := withContent 2 [0x48#8, 0x49#8] s

/-- A full stream of ones. -/
def onesStream : Vector Bool 208 := Vector.replicate 208 true

/-- Some rows of the grid as GROWr shows them. -/
def rows (rs : List Nat) (s : State) : List Word := rs.map fun r => growWord s.g r

/-- The state a list of outside events leads to in k steps (reset if it stops). -/
def reached (events : List PortEvent) (k : Nat) : State :=
  match core.run k { State.reset with pending := events } with
  | .next t => t
  | _ => State.reset

theorem reachable_reached {events : List PortEvent} {k : Nat}
    (h : seen (fun _ => ()) (core.run k { State.reset with pending := events }) = some ()) :
    Reachable (reached events k) := by
  refine ⟨events, k, ?_⟩
  unfold reached
  split
  · assumption
  · rename_i hn
    cases hr : core.run k { State.reset with pending := events } with
    | next t => exact absurd hr (hn t)
    | fault f => rw [hr] at h; cases h
    | refused f => rw [hr] at h; cases h

/-! ## WellFormed: the coordinates must fit five bits (R51) -/

theorem test_qrsv_row_32_refused : (Instr.qrsv 32 0).wellFormed = false := by decide
theorem test_qrsv_column_32_refused : (Instr.qrsv 0 32).wellFormed = false := by decide
theorem test_qrsv_31_31_accepted : (Instr.qrsv 31 31).wellFormed = true := by decide

/-! ## Decoding: words written out field by field, op ++ operand (R51, R52); vectors V30 -/

theorem test_decode_nop : decode (0b00000000#8 ++ 0#24) = .ok .nop := by decide
theorem test_decode_clr : decode (0b00000001#8 ++ 0#24) = .ok .clr := by decide
theorem test_decode_pstruct : decode (0b00000010#8 ++ 0#24) = .ok .pstruct := by decide
theorem test_decode_pformat : decode (0b00000011#8 ++ 0#24) = .ok .pformat := by decide
theorem test_decode_encode : decode (0b00000100#8 ++ 0#24) = .ok .encode := by decide
theorem test_decode_ecccat : decode (0b00000101#8 ++ 0#24) = .ok .ecccat := by decide
theorem test_decode_place : decode (0b00000110#8 ++ 0#24) = .ok .place := by decide
theorem test_decode_mask : decode (0b00000111#8 ++ 0#24) = .ok .mask := by decide
theorem test_decode_gen : decode (0b00001000#8 ++ 0#24) = .ok .gen := by decide
theorem test_decode_cstart : decode (0b00010000#8 ++ 0#24) = .ok .cstart := by decide
theorem test_decode_cpush : decode (0b00010001#8 ++ 0b001000001010110011110001#24) = .ok (.cpush 0x20ACF1#24) := by decide
theorem test_decode_cnull : decode (0b00010010#8 ++ 0#24) = .ok .cnull := by decide
theorem test_decode_qrsv :
    decode (0b00100000#8 ++ (0b00000000000#11 ++ (0b01101#5 ++ (0b000#3 ++ 0b01000#5)))) = .ok (.qrsv 13 8) := by decide

/-- V30-19, V30-20: each must-be-zero field of format Q (R54(c)). -/
theorem test_decode_qrsv_reserved_bits :
    decode 0x20002000 = .error .reservedNotZero ∧ decode 0x20000020 = .error .reservedNotZero := by decide

/-- V30-21, V30-22, V30-28: a format Z word with an operand (R54(b)). -/
theorem test_decode_operand_not_zero :
    decode 0x01000001 = .error .operandNotZero ∧ decode 0x08800000 = .error .operandNotZero ∧
    decode 0x00000001 = .error .operandNotZero := by decide

/-- V30-23 to V30-27: no op value (R54(a)). -/
theorem test_decode_undefined_op :
    decode 0x09000000 = .error .undefinedOp ∧ decode 0x0F000000 = .error .undefinedOp ∧
    decode 0x13000000 = .error .undefinedOp ∧ decode 0x21000000 = .error .undefinedOp ∧
    decode 0xFFFFFFFF = .error .undefinedOp := by decide

theorem test_table_word : decodeTableWord 32 0x20001F1F = some (.qrsv 31 31) ∧ decodeTableWord 32 0x09000000 = none := by
  decide

/-- The very next step after reset runs the word. -/
theorem test_withFetchWord :
    seen (fun t => (statusWord t, t.pending)) (step (State.reset.withFetchWord 32 0x10000000)) = some (0x00000010, []) := by
  decide +kernel

/-- R57's two examples. -/
theorem test_assemble : assemble "CPUSH 'H'\nQRSV 13, 8" = some [0x11000048, 0x20000D08] := by decide +kernel

/-- A `;` in a character literal starts no comment, and `'''` is the apostrophe (log 17). -/
theorem test_assemble_quotes :
    assemble "CPUSH ';' ; a semicolon\nCPUSH ''' ; an apostrophe" = some [0x1100003B, 0x11000027] := by decide +kernel

/-- An operand that does not fit its field is no line of R57. -/
theorem test_assemble_refuses : assemble "QRSV 32, 0" = none ∧ assemble "CPUSH" = none ∧ assemble "cpush 1" = none := by
  decide +kernel

/-! ## One step per command -/

/-- NOP at DONE with an error pending: STATUS as before (R123). -/
theorem test_nop :
    seen statusWord (exec .nop { atStage .done with err := ⟨false, true, true⟩ }) = some 0x000000CF := by decide +kernel

/-- V41-2: CLR at DONE keeps CLEN and CVALID, clears the rest. -/
theorem test_clr :
    seen (fun t => (statusWord t, t.res)) (exec .clr
      { hi (atStage .done) with bs := onesStream, bslen := 208, err := ⟨false, false, true⟩, res := true }) =
      some (0x00000211, true) := by decide +kernel

/-- V41-1: rows of S1. -/
theorem test_pstruct :
    seen (rows [0, 2, 6, 8, 13, 15]) (exec .pstruct (atStage .alloc)) =
      some [0x1FC07F, 0x17405D, 0x1FD57F, 0x000040, 0x000100, 0x000041] := by decide +kernel

/-- V41-3: PSTRUCT out of order. -/
theorem test_pstruct_out_of_order : seen statusWord (exec .pstruct State.reset) = some 0x00000080 := by decide +kernel

/-- V42-1: the format cells with the default word, here on a light grid. -/
theorem test_pformat :
    seen (rows [7, 8, 9, 10, 14]) (exec .pformat (atStage .struct)) = some [0x100, 0x1F7, 0x100, 0, 0x100] := by
  decide +kernel

/-- V42-6: only f13 set reaches (8, 1) and (8, 8); V42-7: f6..f0 reach no cell. -/
theorem test_pformat_other_words :
    seen (rows [8]) (pformatRun { config with formatWord := 0x2000#15 } (atStage .struct)).outcome = some [0x102] ∧
    seen (rows [8]) (pformatRun { config with formatWord := 0x007F#15 } (atStage .struct)).outcome = some [0] := by
  decide +kernel

/-- V43-3: "HI". -/
theorem test_encode :
    seen (fun t => (statusWord t, bswWord t.bs 0, bswWord t.bs 4)) (exec .encode (hi (atStage .format))) =
      some (0x00980214, 0x40248490, 0xEC11EC00) := by decide +kernel

/-- V60-4: null content aborts. -/
theorem test_encode_null : seen statusWord (exec .encode (atStage .format)) = some 0x00000020 := by decide +kernel

/-- R107's example: the stand-in bits 152 to 207, here after data bits all 0. -/
theorem test_ecccat :
    seen (fun t => (t.bslen, bswWord t.bs 4, bswWord t.bs 5, bswWord t.bs 6)) (exec .ecccat (atStage .encoded)) =
      some (208, 0x000000AA, 0xAAAAAAAA, 0xAAAA0000) := by decide +kernel

/-- R114's example: stream index 1 goes to (20, 19). -/
theorem test_place_order :
    seen (rows [20, 19]) (exec .place
      { atStage .concat with bs := (Vector.replicate 208 false).set 1 true, bslen := 208 }) = some [0x80000, 0] := by
  decide +kernel

/-- R113, R115 on a stream of ones: row 12 is its free cells without columns 0 to 3, whose indices are 208 and more. -/
theorem test_place_exhausted :
    seen (rows [12]) (exec .place { atStage .concat with bs := onesStream, bslen := 208 }) = some [0x1FFEB0] := by
  decide +kernel

/-- R118 on a light grid: free cells with even row + column turn dark. -/
theorem test_mask :
    seen (rows [20, 13, 6]) (exec .mask (atStage .placed)) = some [0x155500, 0xAAA00, 0] := by decide +kernel

/-- V46-3: a second MASK. -/
theorem test_mask_twice :
    seen statusWord (exec .mask { hi (atStage .done) with bslen := 208 }) = some 0x00D0029F := by decide +kernel

/-- V47-1: "HI". -/
theorem test_gen :
    seen (fun t => (statusWord t, bswWord t.bs 4, rows [0, 10, 20] t)) (exec .gen (hi State.reset)) =
      some (0x00D0021F, 0xEC11ECAA, [0x1FD97F, 0x1F10F5, 0x1EF27F]) := by decide +kernel

/-- V47-7, V47-8: 18 characters, and null content. -/
theorem test_gen_failures :
    seen statusWord (exec .gen (withContent 18 [] State.reset)) = some 0x00001250 ∧
    seen statusWord (exec .gen State.reset) = some 0x00000020 := by decide +kernel

/-- R93's example; the run in progress goes on. -/
theorem test_cstart : seen statusWord (exec .cstart (atStage .concat)) = some 0x00000015 := by decide +kernel

/-- R95's examples: the low byte is kept, the count grows; the 18th character only saturates the count. -/
theorem test_cpush :
    seen (fun t => (t.clen, t.cbuf[0])) (exec (.cpush 0x20AC#24) (withContent 0 [] State.reset)) = some (1, 0xAC#8) ∧
    seen (fun t => (t.clen, t.cbuf)) (exec (.cpush 0x52#24) (withContent 17 [0x41#8] State.reset)) =
      some (18, (withContent 17 [0x41#8] State.reset).cbuf) := by decide +kernel

theorem test_cpush_on_null : seen statusWord (exec (.cpush 0x41#24) State.reset) = some 0x00000080 := by decide +kernel

/-- R94's example. -/
theorem test_cnull : seen statusWord (exec .cnull (withContent 1 [0x41#8] State.reset)) = some 0 := by decide +kernel

/-- R72's examples (V40-3, V40-5). -/
theorem test_qrsv :
    seen (·.res) (exec (.qrsv 13 8) State.reset) = some true ∧
    seen (·.res) (exec (.qrsv 9 7) { State.reset with res := true }) = some false := by decide +kernel

theorem test_qrsv_off_grid :
    seen (fun t => (t.res, statusWord t)) (exec (.qrsv 21 0) { State.reset with res := true }) = some (true, 0x00000080) := by
  decide +kernel

/-- V60-3: an illegal word at STG 2 with ENCODE's op raises IllegalCommand once and aborts nothing. -/
theorem test_illegal_word : seen statusWord (runWord 0x04000001 (hi (atStage .struct))) = some 0x00000292 := by
  decide +kernel

/-- V60-1: reads after reset, FMT aside. -/
theorem test_reset_reads :
    readRegister config State.reset 0x01 = some 0 ∧ readRegister config State.reset 0x03 = some 0x000077C4 ∧
    readRegister config State.reset 0x34 = some 0 ∧ readRegister config State.reset 0x35 = none := by decide +kernel

/-! ## Witnesses: for each statement with hypotheses, a state and operands that meet all of them -/

/-- A command ends in a next state. -/
def ends (i : Instr) (s : State) : Bool := (seen (fun _ => ()) (exec i s)).isSome

theorem exec_of_ends {i : Instr} {s : State} (h : ends i s = true) : ∃ t, exec i s = .next t := by
  unfold ends at h
  cases he : exec i s with
  | next t => exact ⟨t, rfl⟩
  | fault f => rw [he] at h; cases h
  | refused r => rw [he] at h; cases h

theorem witness_DecodeOfEncodeIsTheInstruction :
    (Instr.qrsv 31 0).wellFormed = true ∧ (Instr.cpush 0xFFFFFF#24).wellFormed = true := by decide

theorem witness_EncodeOfDecodeIsTheWord : decode 0x20001F1F = .ok (.qrsv 31 31) ∧ decode 0x11FFFFFF = .ok (.cpush 0xFFFFFF#24) := by
  decide

theorem witness_DecoderIsTheMatchTable :
    (∃ row ∈ matchTable, (0x20001F1F : Word) &&& row.mask = row.wanted) ∧
    (∀ row ∈ matchTable, (0x20002000 : Word) &&& row.mask ≠ row.wanted) := by decide +kernel

theorem witness_IllegalWordsByEncoding :
    (∃ e, decode 0x09000000 = .error e) ∧ (∃ e, decode 0x01000001 = .error e) ∧ (∃ e, decode 0x200000E0 = .error e) :=
  ⟨⟨_, rfl⟩, ⟨_, rfl⟩, ⟨_, rfl⟩⟩

theorem witness_OperandFieldsAndTheirUse :
    ((0x0141#24).toNat % 256 = (0x41#24).toNat % 256) ∧
    (∃ r c : Nat, r < 32 ∧ c < 32 ∧ 20 < r) ∧ (∃ r c : Nat, r < 32 ∧ c < 32 ∧ 20 < c) :=
  ⟨by decide, ⟨21, 0, by decide⟩, ⟨0, 31, by decide⟩⟩

theorem witness_StepRunsTheDecodedCommand :
    ∃ s : State, s.pending = cmdWrite 0x08000000 :: [] ∧ decode 0x08000000 = .ok .gen :=
  ⟨{ State.reset with pending := [cmdWrite 0x08000000] }, rfl, by decide⟩

theorem witness_StepOfAnIllegalWord :
    ∃ s : State, s.pending = cmdWrite 0x09000000 :: [] ∧ decode 0x09000000 = .error .undefinedOp :=
  ⟨{ State.reset with pending := [cmdWrite 0x09000000] }, rfl, by decide⟩

theorem witness_NothingRunsUntilAWordIsWritten :
    State.reset.pending = [] ∧ { atStage .done with pending := [.reset] }.pending = .reset :: [] := ⟨rfl, rfl⟩

theorem witness_RegisterReadsHaveNoSideEffect :
    ∃ (s : State) (n : Nat) (v : Word), s.pending = regRead n :: [] ∧ readRegister config s n = some v :=
  ⟨{ State.reset with pending := [regRead 0x46] }, 0x46, 0, rfl, by decide +kernel⟩

theorem witness_AccessesOutsideTheContract :
    (∃ (s : State) (a : Access), s.pending = .read a :: []) ∧
    (∃ (s : State) (a : Access) (w : Word), s.pending = .write a w :: []) :=
  ⟨⟨{ State.reset with pending := [.read { reg := 0x35 }] }, _, rfl⟩,
    ⟨{ State.reset with pending := [.write { reg := 0x01 } 0] }, _, _, rfl⟩⟩

theorem witness_GridRowRegisters :
    ∃ (s : State) (t : State), s.stg = .alloc ∧ (∀ r c, s.g.get r c = false) ∧ exec .pstruct s = .next t := by
  obtain ⟨t, h⟩ := exec_of_ends (i := .pstruct) (s := atStage .alloc) (by decide +kernel)
  exact ⟨atStage .alloc, t, rfl, fun r c => Grid.get_light r c, h⟩

/-- A complete stream with the data of "HI". -/
def hiStream : Vector Bool 208 := genStream config 2 (hi State.reset).cbuf

theorem witness_StreamWordRegisters :
    (∃ (s : State) (i : Nat), i < 208 ∧ StreamWf s ∧ s.bslen.val ≤ i) ∧
    (∃ (s : State) (b : Nat → Byte), b 0 = 0x48#8 ∧ b 1 = 0x49#8 ∧ HoldsData s.bs 2 b) :=
  ⟨⟨State.reset, 207, by decide, fun i _ _ => streamBit_zeroStream i, by decide⟩,
    ⟨{ State.reset with bs := hiStream }, contentByte (hi State.reset).cbuf, by decide +kernel, by decide +kernel,
      genStream_holdsData config (by decide) _⟩⟩

theorem witness_WrittenSequencesRunInOrder :
    ∃ t, (∀ i ∈ [Instr.cstart, .cpush 0x41#24], i.wellFormed = true) ∧ State.reset.pending = [] ∧
      runAll [.cstart, .cpush 0x41#24] State.reset = .next t :=
  ⟨_, by decide, rfl, rfl⟩

theorem witness_ResetSetsEveryPiece : ∃ s : State, s.stg = .done ∧ s.pending = .reset :: [regRead 0x01] :=
  ⟨{ atStage .done with pending := [.reset, regRead 0x01] }, rfl, rfl⟩

theorem witness_IllegalCommandExactCases :
    (∃ e, decode 0xFFFFFFFF = .error e) ∧ misused .pstruct State.reset = true ∧
    misused (.cpush 0#24) State.reset = true ∧ misused (.qrsv 0 21) State.reset = true ∧
    (∃ t, misused .nop { State.reset with err := ⟨false, false, true⟩ } = false ∧
      exec .nop { State.reset with err := ⟨false, false, true⟩ } = .next t ∧ t.err.ill = true) :=
  ⟨⟨_, rfl⟩, by decide, by decide, by decide, ⟨_, by decide, rfl, rfl⟩⟩

theorem witness_ContentExceptionConditions :
    (∃ t, exec .encode (atStage .format) = .next t ∧ (atStage .format).err.inv = false ∧ t.err.inv = true) ∧
    (∃ t, exec .gen (withContent 18 [] State.reset) = .next t ∧ State.reset.err.cap = false ∧ t.err.cap = true) := by
  refine ⟨⟨raise .invalidInput (atStage .format), ?_, rfl, rfl⟩,
    ⟨abort { withContent 18 [] State.reset with err := ⟨false, true, false⟩ }, ?_, rfl, rfl⟩⟩
  · rw [exec_eq_bodyOf, bodyOf, encodeRun_null rfl rfl, outcome_raised]
  · rw [exec_eq_bodyOf, bodyOf, genRun_over config rfl rfl, outcome_raised]

theorem witness_ErrBitsAreSticky :
    (∃ t, exec .nop { State.reset with err := ⟨true, true, true⟩ } = .next t ∧ Instr.nop ≠ .clr ∧ Instr.nop ≠ .gen) ∧
    (∃ t, exec .clr State.reset = .next t) ∧ (∃ t, exec .gen State.reset = .next t) :=
  ⟨⟨_, rfl, by decide, by decide⟩, exec_of_ends (by decide +kernel), exec_of_ends (by decide +kernel)⟩

/-- A state that no run reaches, where ENCODE's appends do not fit (log 7). -/
def overfull : State := { withContent 17 [] (atStage .format) with bslen := 200 }

theorem witness_ErrNeverGatesExecution :
    (∃ t, exec .gen (hi State.reset) = .next t) ∧ exec .encode overfull = .fault .streamOverrun :=
  ⟨exec_of_ends (by decide +kernel), by
    rw [exec_eq_bodyOf, show bodyOf .encode overfull = .stopped .streamOverrun by decide +kernel, outcome_stopped]⟩

theorem witness_StageTransitionTable :
    (∃ e, decode 0x09000000 = .error e) ∧ (∃ t, exec .gen (hi State.reset) = .next t) ∧
    (∃ t, exec .mask State.reset = .next t ∧ misused .mask State.reset = true) := by
  obtain ⟨t, h⟩ := exec_of_ends (i := .mask) (s := State.reset) (by decide +kernel)
  exact ⟨⟨_, rfl⟩, exec_of_ends (by decide +kernel), ⟨t, h, by decide⟩⟩

theorem witness_WhichCommandWritesWhat :
    (∃ t, exec .encode (hi (atStage .format)) = .next t ∧ contentFits (hi (atStage .format)) = true) ∧
    (∃ t, exec (.qrsv 20 20) State.reset = .next t) := by
  obtain ⟨t, h⟩ := exec_of_ends (i := .encode) (s := hi (atStage .format)) (by decide +kernel)
  exact ⟨⟨t, h, by decide⟩, exec_of_ends (by decide +kernel)⟩

/-- Every stage but one is the hypothesis of a misuse clause. -/
theorem witness_other_stages :
    State.reset.stg ≠ .alloc ∧ State.reset.stg ≠ .struct ∧ State.reset.stg ≠ .format ∧ State.reset.stg ≠ .encoded ∧
    State.reset.stg ≠ .concat ∧ State.reset.stg ≠ .placed := by decide

theorem witness_PstructWritesTheStructure :
    (atStage .alloc).stg = .alloc ∧ (14, 0) ∈ [(0, 0), (0, 14), (14, 0)] ∧ isSeparator 20 7 = true ∧
    (isFinder 14 8 = false ∧ isSeparator 14 8 = false ∧ isTiming 14 8 = false ∧ isDarkModule 14 8 = false) ∧
    (∀ r c, (atStage .alloc).g.get r c = false) :=
  ⟨rfl, by decide, by decide, by decide, fun r c => Grid.get_light r c⟩

theorem witness_PformatWritesTheFormatWord :
    (atStage .struct).stg = .struct ∧ (∃ r, 9 ≤ r ∧ r ≤ 12) ∧ isFormat 8 9 = false ∧ isFormat 15 8 = false :=
  ⟨rfl, ⟨12, by decide⟩, by decide, by decide⟩

theorem witness_PformatForAnyFormatWord :
    (atStage .struct).stg = .struct ∧ (0x0000#15) ≠ 0x00FF#15 ∧
    ∀ k, 8 ≤ k → (0x0000#15).getLsbD k = (0x00FF#15).getLsbD k := by
  refine ⟨rfl, by decide, fun k hk => ?_⟩
  by_cases h : k < 15
  · have : ∀ k, k < 15 → 8 ≤ k → (0x0000#15).getLsbD k = (0x00FF#15).getLsbD k := by decide
    exact this k h hk
  · rw [BitVec.getLsbD_of_ge _ _ (by omega), BitVec.getLsbD_of_ge _ _ (by omega)]

theorem witness_CpushAppendsOneCharacter :
    ((withContent 16 [] State.reset).cvalid = true ∧ (withContent 16 [] State.reset).clen.val ≤ 16) ∧
    ((withContent 17 [] State.reset).cvalid = true ∧ 16 < (withContent 17 [] State.reset).clen.val) ∧
    State.reset.cvalid = false := by decide

theorem witness_EncodeAppendsTheClosedForm :
    ∃ s : State, s.stg = .format ∧ s.bslen = 0 ∧ s.cvalid = true ∧ s.clen.val ≤ 17 :=
  ⟨withContent 17 [] (atStage .format), rfl, rfl, rfl, by decide⟩

theorem witness_EncodeFailuresAbort :
    ((atStage .format).stg = .format ∧ (atStage .format).cvalid = false) ∧
    ((withContent 18 [] (atStage .format)).stg = .format ∧ (withContent 18 [] (atStage .format)).cvalid = true ∧
      (withContent 18 [] (atStage .format)).clen.val = 18) := by decide

theorem witness_EcccatAppendsThePlaceholder : (atStage .encoded).stg = .encoded := rfl

theorem witness_EcccatForAnyStrategy :
    ∃ (s s' t t' : State), (∀ i, i < 152 → streamBit s.bs i = streamBit s'.bs i) ∧ s.stg = .encoded ∧
      s'.stg = .encoded ∧ ecccatRun config s = .completed t ∧ ecccatRun config s' = .completed t' :=
  ⟨atStage .encoded, hi (atStage .encoded), _, _, fun _ _ => rfl, rfl, rfl, ecccatRun_of_stg config rfl,
    ecccatRun_of_stg config rfl⟩

theorem witness_PlaceFillsTheFreeCells :
    (atStage .concat).stg = .concat ∧ reservedCell 8 8 = true ∧ placeTable[223]? = some (9, 0) ∧
    reservedCell 20 20 = false := ⟨rfl, by decide +kernel, by decide +kernel, by decide +kernel⟩

theorem witness_MaskTogglesTheFreeCells : (atStage .placed).stg = .placed := rfl

theorem witness_MaskInvertsOneHundredAndTwelveCells :
    ∃ t, (atStage .placed).stg = .placed ∧ exec .mask (atStage .placed) = .next t := by
  obtain ⟨t, h⟩ := exec_of_ends (i := .mask) (s := atStage .placed) (by decide +kernel)
  exact ⟨t, rfl, h⟩

theorem witness_QrsvAnswersTheReservedMap :
    (∃ r c : Nat, r < 32 ∧ c < 32 ∧ r ≤ 20 ∧ c ≤ 20) ∧ (∃ r c : Nat, r < 32 ∧ c < 32 ∧ 20 < r) ∧
    (∃ r c : Nat, r < 32 ∧ c < 32 ∧ 20 < c) := ⟨⟨20, 20, by decide⟩, ⟨21, 0, by decide⟩, ⟨0, 21, by decide⟩⟩

theorem witness_GenBuildsTheFinalGrid :
    ∃ s : State, s.stg = .placed ∧ s.cvalid = true ∧ s.clen.val ≤ 17 :=
  ⟨withContent 17 [] (atStage .placed), rfl, rfl, by decide⟩

theorem witness_GenEqualsStepAll :
    contentFits (withContent 0 [] State.reset) = true ∧ contentFits (withContent 17 [] State.reset) = true ∧
    contentFits (withContent 18 [] State.reset) = false ∧ contentFits State.reset = false := by decide

theorem witness_GenFailuresAbort :
    State.reset.cvalid = false ∧ (withContent 18 [] State.reset).cvalid = true ∧
    (withContent 18 [] State.reset).clen.val = 18 := by decide

theorem witness_GenSuccessIsShownByDone :
    (∃ t, exec .gen (hi State.reset) = .next t) ∧ (∃ t, exec .gen State.reset = .next t) :=
  ⟨exec_of_ends (by decide +kernel), exec_of_ends (by decide +kernel)⟩

theorem witness_GenIgnoresTheEarlierRun :
    ∃ s s' : State, s ≠ s' ∧ s.cvalid = s'.cvalid ∧ s.clen = s'.clen ∧ s.cbuf = s'.cbuf ∧ s.res = s'.res ∧
      s.pending = s'.pending ∧ s.answers = s'.answers :=
  ⟨State.reset, atStage .done, by decide +kernel, rfl, rfl, rfl, rfl, rfl, rfl⟩

theorem witness_ReservedCellsIgnoreTheContent :
    ∃ (cfg cfg' : Config) (s s' t t' : State), cfg.formatWord = cfg'.formatWord ∧ s.clen ≠ s'.clen ∧
      genRun cfg s = .completed t ∧ genRun cfg' s' = .completed t' ∧ reservedCell 13 8 = true :=
  ⟨config, { config with eccFn := fun _ => Vector.replicate 56 true }, hi State.reset, withContent 17 [] State.reset, _, _,
    rfl, by decide, genRun_fits _ rfl (by decide), genRun_fits _ rfl (by decide), by decide +kernel⟩

theorem witness_LaterContentDoesNotReachTheGrid :
    (∃ t, exec .ecccat (atStage .encoded) = .next t) ∧ (∃ t, exec .place (atStage .concat) = .next t) ∧
    (∃ t, exec .mask (atStage .placed) = .next t) :=
  ⟨exec_of_ends (by decide +kernel), exec_of_ends (by decide +kernel), exec_of_ends (by decide +kernel)⟩

/-- The reset state with a run of "HI" in front of it. -/
def hiEvents : List PortEvent := cmdWrites [.cstart, .cpush 0x48#24, .cpush 0x49#24, .gen]

theorem witness_EveryStepKeepsTheStageInvariant :
    ∃ s t, Inv config s ∧ step s = .next t := by
  refine ⟨State.reset, _, ⟨fun i _ _ => streamBit_zeroStream i, ⟨fun _ => rfl, fun i h _ => ?_⟩,
    ⟨fun r c => Grid.get_light r c, rfl⟩⟩, rfl⟩
  simp [contentByte, State.reset, h]

theorem witness_ReachableStatesMeetTheStageTable : Reachable (reached hiEvents 4) :=
  reachable_reached (by decide +kernel)

theorem witness_InvariantStatesNeverFault : ∃ s, Inv config s := by
  obtain ⟨s, -, h, -⟩ := witness_EveryStepKeepsTheStageInvariant
  exact ⟨s, h⟩

theorem witness_DoneMeansAFinishedGrid : Reachable (reached hiEvents 4) ∧ IsResult (reached hiEvents 4) :=
  ⟨witness_ReachableStatesMeetTheStageTable, by unfold IsResult; decide +kernel⟩

end Sys2Proof.Tests
end

section
/-! PROOFS of the family 00_scope: the one way a command can stop short of a next state, and what follows from it for a step
from a state that meets the invariant. -/

namespace Sys2Proof.Machine

/-- A `require` raises or hands over; it never stops by itself. -/
theorem requireStage_stopped {k : Stage} {s : State} {body : State → Run} {f : Fault}
    (h : requireStage k s body = .stopped f) : s.stg = k ∧ body s = .stopped f := by
  by_cases hk : s.stg = k
  · exact ⟨hk, requireStage_of_eq body hk ▸ h⟩
  · rw [requireStage_of_ne body hk] at h
    cases h

/-- ENCODE stops only at its own stage, with a stream that is not empty (log 7). -/
theorem encodeRun_stopped {s : State} {f : Fault} (h : encodeRun s = .stopped f) :
    s.stg = .format ∧ s.bslen ≠ 0 := by
  rcases encodeRun_cases s with ⟨-, he⟩ | ⟨-, -, he⟩ | ⟨-, -, -, he⟩ | ⟨hstg, -, -, ⟨_, _, he⟩ | ⟨hlen, -⟩⟩
  case inr.inr.inr.inr => exact ⟨hstg, hlen⟩
  all_goals cases he ▸ h

/-- GEN never stops: it empties the stream before its ENCODE part (R124). -/
theorem genRun_ne_stopped (cfg : Config) (s : State) (f : Fault) : genRun cfg s ≠ .stopped f := by
  rcases genRun_cases cfg s with ⟨-, hg⟩ | ⟨-, -, hg⟩ | ⟨-, -, hg⟩ <;> simp [hg]

theorem cpushRun_ne_stopped (cp : BitVec 24) (s : State) (f : Fault) : cpushRun cp s ≠ .stopped f := by
  rw [cpushRun]
  split
  · split <;> simp
  · simp

theorem qrsvRun_ne_stopped (r c : Nat) (s : State) (f : Fault) : qrsvRun r c s ≠ .stopped f := by
  rw [qrsvRun]
  split <;> simp

/-- ENCODE is the only command whose body can stop. -/
theorem bodyOf_stopped {i : Instr} {s : State} {f : Fault} (h : bodyOf i s = .stopped f) :
    i = .encode ∧ s.stg = .format ∧ s.bslen ≠ 0 := by
  cases i
  case encode => exact ⟨rfl, encodeRun_stopped h⟩
  case nop | clr | cstart | cnull => cases h
  case pstruct | pformat | ecccat | place | mask =>
    simp only [bodyOf, pstructRun, pformatRun, ecccatRun, placeRun, maskRun] at h
    obtain ⟨-, hbody⟩ := requireStage_stopped h
    cases hbody
  case gen => exact absurd h (genRun_ne_stopped config s f)
  case cpush cp => exact absurd h (cpushRun_ne_stopped cp s f)
  case qrsv r c => exact absurd h (qrsvRun_ne_stopped r c s f)

/-- The outcomes of a command, by how its body ends: none is refused. -/
theorem exec_next_or_stopped (i : Instr) (s : State) :
    (∃ t, exec i s = .next t) ∨ ∃ f, exec i s = .fault f ∧ bodyOf i s = .stopped f := by
  rw [exec_eq_bodyOf]
  cases bodyOf i s with
  | completed t => exact .inl ⟨t, rfl⟩
  | raised t => exact .inl ⟨t, rfl⟩
  | stopped f => exact .inr ⟨f, rfl, rfl⟩

theorem exec_fault {i : Instr} {s : State} {f : Fault} (h : exec i s = .fault f) :
    i = .encode ∧ s.stg = .format ∧ s.bslen ≠ 0 := by
  rcases exec_next_or_stopped i s with ⟨t, ht⟩ | ⟨f', -, hbody⟩
  · cases ht ▸ h
  · exact bodyOf_stopped hbody

/-- The stop of log 7 does happen: a full stream at STG 3 leaves no room for the header of an empty content. -/
theorem exec_encode_full_stream_faults :
    exec .encode { State.reset with stg := .format, bslen := 208, cvalid := true } = .fault .streamOverrun := by
  have hstop : encodeRun { State.reset with stg := .format, bslen := 208, cvalid := true } = .stopped .streamOverrun := by
    decide +kernel
  rw [exec_eq_bodyOf, bodyOf, hstop, outcome_stopped]

/-- Settles O25: a body that does not stop ends in a next state, and only ENCODE's can stop. -/
theorem everyCommandEnds : Obligations.EveryCommandEnds := by
  intro i s
  rcases exec_next_or_stopped i s with hnext | ⟨f, hfault, -⟩
  · exact .inl hnext
  · cases f with
    | streamOverrun => exact .inr ⟨hfault, exec_fault hfault⟩

/-! ## Steps -/

theorem runWord_fault {w : Word} {s : State} {f : Fault} (h : runWord w s = .fault f) :
    s.stg = .format ∧ s.bslen ≠ 0 := by
  unfold runWord at h
  split at h
  · exact (exec_fault h).2
  · cases h

theorem serveRead_ne_fault (a : Access) (s : State) (f : Fault) : serveRead a s ≠ .fault f := by
  unfold serveRead
  split
  · simp
  · split <;> simp

theorem serveWrite_fault {a : Access} {w : Word} {s : State} {f : Fault} (h : serveWrite a w s = .fault f) :
    s.stg = .format ∧ s.bslen ≠ 0 := by
  unfold serveWrite at h
  split at h
  · cases h
  · split at h
    · exact runWord_fault h
    · cases h

/-- A step faults only where ENCODE would: at STG 3 with a stream that is not empty. -/
theorem step_fault {s : State} {f : Fault} (h : step s = .fault f) : s.stg = .format ∧ s.bslen ≠ 0 := by
  unfold step at h
  split at h
  · cases h
  next e rest _ =>
    cases e with
    | read a => exact absurd h (serveRead_ne_fault a _ f)
    | write a w => exact serveWrite_fault (s := { s with pending := rest }) h
    | reset => cases h

/-- Row STG = 3 of R25: the stream is still empty. -/
theorem Inv.bslen_of_format {cfg : Config} {s : State} (hinv : Inv cfg s) (hstg : s.stg = .format) : s.bslen = 0 := by
  obtain ⟨-, -, hstage⟩ := hinv
  rw [StageInv, hstg] at hstage
  exact hstage.2

/-- Settles O53: a fault needs a stream that is not empty at STG 3, which R25's row for STG = 3 rules out. -/
theorem invariantStatesNeverFault : Obligations.InvariantStatesNeverFault := by
  intro s f hinv h
  obtain ⟨hstg, hlen⟩ := step_fault h
  exact hlen (hinv.bslen_of_format hstg)

end Sys2Proof.Machine
end

section
/-! PROOFS of the family 10_state: the control registers, the error mask, which command writes which piece of the state,
and the invariant of R25 along every step and every run. -/

namespace Sys2Proof.Machine

/-! ## The control registers -/

/-- A bit is a field of width 1. -/
theorem getLsbD_eq_of_field {w : Word} {k : Nat} {b : Bool} (h : w.toNat / 2 ^ k % 2 = b.toNat) : w.getLsbD k = b := by
  rw [← BitVec.testBit_toNat, Nat.testBit_eq_decide_div_mod_eq, h]
  cases b <;> rfl

/-- The fields of STATUS as digits of its number, lowest first (R24). -/
theorem statusWord_digits (s : State) :
    (statusWord s).toNat / 1 % 8 = s.stg.number.toNat ∧
    (statusWord s).toNat / 8 % 2 = (doneFlag s).toNat ∧
    (statusWord s).toNat / 16 % 2 = s.cvalid.toNat ∧
    (statusWord s).toNat / 32 % 2 = s.err.inv.toNat ∧
    (statusWord s).toNat / 64 % 2 = s.err.cap.toNat ∧
    (statusWord s).toNat / 128 % 2 = s.err.ill.toNat ∧
    (statusWord s).toNat / 256 % 32 = s.clen.val ∧
    (statusWord s).toNat / 8192 % 8 = 0 ∧
    (statusWord s).toNat / 65536 % 256 = s.bslen.val ∧
    (statusWord s).toNat / 16777216 % 256 = 0 := by
  have hstg := s.stg.number.isLt
  have hdone := (doneFlag s).toNat_le
  have hvalid := s.cvalid.toNat_le
  have hinv := s.err.inv.toNat_le
  have hcap := s.err.cap.toNat_le
  have hill := s.err.ill.toNat_le
  have hclen := s.clen.isLt
  have hlen := s.bslen.isLt
  rw [statusWord_toNat]
  omega

/-- Settles O12: STATUS is read digit by digit; the other three registers are a value below zeros. -/
theorem controlRegisterFields : Obligations.ControlRegisterFields := by
  intro cfg s
  refine ⟨rfl, ⟨statusWord s, rfl, ?_⟩, ⟨resWord s, rfl, ?_, ?_⟩, ⟨fmtWord cfg, rfl, ?_, ?_⟩⟩
  · obtain ⟨hstg, hdone, hvalid, hinv, hcap, hill, hclen, hgap, hlen, htop⟩ := statusWord_digits s
    refine ⟨(toNat_field _ 0 3).trans (hstg.trans ?_), getLsbD_eq_of_field (b := doneFlag s) hdone,
      getLsbD_eq_of_field hvalid, getLsbD_eq_of_field hinv, getLsbD_eq_of_field hcap, getLsbD_eq_of_field hill,
      (toNat_field _ 8 5).trans hclen, (field_eq_iff _ 13 3 0).mpr hgap, (toNat_field _ 16 8).trans hlen,
      (field_eq_iff _ 24 8 0).mpr htop⟩
    cases s.stg <;> rfl
  · cases hres : s.res <;> simp [resWord, hres]
  · exact BitVec.extractLsb'_append_eq_left
  · exact BitVec.extractLsb'_append_eq_right
  · exact BitVec.extractLsb'_append_eq_left

/-! ## The error mask -/

/-- Every bit set in the first mask is set in the second. -/
def ErrMask.Within (e e' : ErrMask) : Prop :=
  (e.inv = true → e'.inv = true) ∧ (e.cap = true → e'.cap = true) ∧ (e.ill = true → e'.ill = true)

theorem ErrMask.within_refl (e : ErrMask) : e.Within e := ⟨id, id, id⟩

theorem ErrMask.within_record (e : ErrMask) (c : Cause) : e.Within (e.record c) := by
  cases c
  case invalidInput => exact ⟨fun _ => rfl, id, id⟩
  case capacityExceeded => exact ⟨id, fun _ => rfl, id⟩
  case illegalCommand => exact ⟨id, id, fun _ => rfl⟩

/-- A command other than CLR and GEN records a cause or leaves ERR alone (R17). -/
theorem Effect.err_within {i : Instr} {s t : State} (h : Effect i s t) (hclr : i ≠ .clr) (hgen : i ≠ .gen) :
    s.err.Within t.err := by
  cases h
  case illegal => exact s.err.within_record .illegalCommand
  case encodeNull => exact s.err.within_record .invalidInput
  case encodeOver => exact s.err.within_record .capacityExceeded
  case clr => exact absurd rfl hclr
  case gen | genNull | genOver => exact absurd rfl hgen
  all_goals exact s.err.within_refl

theorem Effect.clr_err {s t : State} (h : Effect .clr s t) : t.err = ErrMask.none := by
  cases h
  case illegal h => cases h
  case clr => rfl

theorem Effect.gen_err {s t : State} (h : Effect .gen s t) :
    t.err = ⟨!s.cvalid, s.cvalid && decide (s.clen.val = 18), false⟩ := by
  cases h
  case illegal h => cases h
  case gen hv hl => simp [ErrMask.none, hv, show s.clen.val ≠ 18 by omega]
  case genNull hv => simp [hv]
  case genOver hv hl => simp [hv, hl]

/-- Settles O21: the three clauses are the three lemmas on what a command does to ERR. -/
theorem errBitsAreSticky : Obligations.ErrBitsAreSticky :=
  ⟨fun _ _ _ h hclr hgen => (effect_of_exec h).err_within hclr hgen, fun _ _ h => (effect_of_exec h).clr_err,
    fun _ _ h => (effect_of_exec h).gen_err⟩

/-! ## No command reads the error mask -/

def State.withErr (e : ErrMask) (s : State) : State := { s with err := e }

/-- The first run ends as the second does, but for the error mask it ends with. -/
def Run.SameButErr (x y : Run) : Prop := ∃ e, x = y.map (State.withErr e)

theorem Run.SameButErr.refl (x : Run) : x.SameButErr x := by
  cases x with
  | completed t => exact ⟨t.err, rfl⟩
  | raised t => exact ⟨t.err, rfl⟩
  | stopped f => exact ⟨ErrMask.none, rfl⟩

theorem Run.SameButErr.raised (c : Cause) (s : State) (e : ErrMask) :
    (Run.raised (raise c (s.withErr e))).SameButErr (.raised (raise c s)) :=
  ⟨e.record c, congrArg Run.raised (by cases c <;> rfl)⟩

theorem Run.SameButErr.ite {p : Prop} [Decidable p] {x x' y y' : Run} (h : x.SameButErr y) (h' : x'.SameButErr y') :
    (if p then x else x').SameButErr (if p then y else y') := by
  by_cases hp : p
  · rwa [if_pos hp, if_pos hp]
  · rwa [if_neg hp, if_neg hp]

theorem Run.SameButErr.dite {p : Prop} [Decidable p] {x y : p → Run} {x' y' : ¬p → Run}
    (h : ∀ hp, (x hp).SameButErr (y hp)) (h' : ∀ hp, (x' hp).SameButErr (y' hp)) :
    (if hp : p then x hp else x' hp).SameButErr (if hp : p then y hp else y' hp) := by
  by_cases hp : p
  · rw [dif_pos hp, dif_pos hp]
    exact h hp
  · rw [dif_neg hp, dif_neg hp]
    exact h' hp

theorem requireStage_withErr {k : Stage} {s : State} {e : ErrMask} {body : State → Run}
    (h : (body (s.withErr e)).SameButErr (body s)) :
    (requireStage k (s.withErr e) body).SameButErr (requireStage k s body) :=
  .ite h (.raised .illegalCommand s e)

theorem storeStream_withErr (st : Stream) (s : State) (e : ErrMask) :
    (storeStream st (s.withErr e)).SameButErr (storeStream st s) :=
  .dite (fun _ => ⟨e, rfl⟩) (fun _ => ⟨e, rfl⟩)

theorem clrRun_withErr (s : State) (e : ErrMask) : clrRun (s.withErr e) = clrRun s := by
  rw [clrRun, clrRun, State.withErr]

/-- GEN starts with CLR, which forgets the error mask (R124). -/
theorem genRun_withErr (cfg : Config) (s : State) (e : ErrMask) : genRun cfg (s.withErr e) = genRun cfg s := by
  rw [genRun, genRun, clrRun_withErr]

/-- No command's body reads the error mask (R17). -/
theorem bodyOf_withErr (i : Instr) (s : State) (e : ErrMask) : (bodyOf i (s.withErr e)).SameButErr (bodyOf i s) := by
  cases i
  case nop | cstart | cnull => exact ⟨e, rfl⟩
  case clr =>
    rw [bodyOf, clrRun_withErr]
    exact .refl _
  case gen =>
    rw [bodyOf, genRun_withErr]
    exact .refl _
  case pstruct | pformat | ecccat | place | mask =>
    simp only [bodyOf, pstructRun, pformatRun, ecccatRun, placeRun, maskRun]
    exact requireStage_withErr ⟨e, by simp only [State.withErr, Run.map]⟩
  case encode =>
    simp only [bodyOf, encodeRun]
    exact requireStage_withErr
      (.ite (.ite (.raised .capacityExceeded s e) (storeStream_withErr _ s e)) (.raised .invalidInput s e))
  case cpush cp =>
    exact .ite (.dite (fun _ => ⟨e, rfl⟩) (fun _ => ⟨e, rfl⟩)) (.raised .illegalCommand s e)
  case qrsv r c => exact .ite ⟨e, rfl⟩ (.raised .illegalCommand s e)

theorem outcome_map_of_next {x : Run} {t : State} (f : State → State) (h : x.outcome = .next t) :
    (x.map f).outcome = .next (f t) := by
  cases x with
  | completed u => exact congrArg (fun v => Host.Outcome.next (f v)) (next_inj h)
  | raised u => exact congrArg (fun v => Host.Outcome.next (f v)) (next_inj h)
  | stopped e => cases h

theorem outcome_map_of_fault {x : Run} {e : Fault} (f : State → State) (h : x.outcome = .fault e) :
    (x.map f).outcome = .fault e := by
  cases x with
  | completed u => cases h
  | raised u => cases h
  | stopped e' => exact h

/-- Settles O22: the bodies end alike but for the error mask, so the outcomes do. -/
theorem errNeverGatesExecution : Obligations.ErrNeverGatesExecution := by
  intro i s e
  obtain ⟨e', hbody⟩ := bodyOf_withErr i s e
  have hexec : exec i { s with err := e } = ((bodyOf i s).map (State.withErr e')).outcome :=
    (exec_eq_bodyOf i _).trans (congrArg Run.outcome hbody)
  rw [hexec, exec_eq_bodyOf]
  exact ⟨fun _ h => ⟨e', outcome_map_of_next _ h⟩, fun _ h => outcome_map_of_fault _ h⟩

/-! ## What each command writes -/

theorem Effect.keeps_g {i : Instr} {s t : State} (h : Effect i s t) (hclr : i ≠ .clr) (hpstruct : i ≠ .pstruct)
    (hpformat : i ≠ .pformat) (hplace : i ≠ .place) (hmask : i ≠ .mask) (hgen : i ≠ .gen)
    (hencode : i = .encode → s.stg = .format → contentFits s = true) : t.g = s.g := by
  cases h
  case clr => exact absurd rfl hclr
  case pstruct => exact absurd rfl hpstruct
  case pformat => exact absurd rfl hpformat
  case place => exact absurd rfl hplace
  case mask => exact absurd rfl hmask
  case gen | genNull | genOver => exact absurd rfl hgen
  case encodeNull hstg hv => exact absurd (hencode rfl hstg) (by simp [contentFits, hv])
  case encodeOver hstg hv hl => exact absurd (hencode rfl hstg) (by simp [contentFits, hl])
  all_goals rfl

theorem Effect.keeps_stream {i : Instr} {s t : State} (h : Effect i s t) (hclr : i ≠ .clr) (hencode : i ≠ .encode)
    (hecccat : i ≠ .ecccat) (hgen : i ≠ .gen) : t.bs = s.bs ∧ t.bslen = s.bslen := by
  cases h
  case clr => exact absurd rfl hclr
  case encode | encodeNull | encodeOver => exact absurd rfl hencode
  case ecccat => exact absurd rfl hecccat
  case gen | genNull | genOver => exact absurd rfl hgen
  all_goals exact ⟨rfl, rfl⟩

theorem Effect.keeps_content {i : Instr} {s t : State} (h : Effect i s t) (hcstart : i ≠ .cstart)
    (hcnull : i ≠ .cnull) (hcpush : ∀ cp, i ≠ .cpush cp) : t.cbuf = s.cbuf ∧ t.clen = s.clen := by
  cases h
  case cstart => exact absurd rfl hcstart
  case cnull => exact absurd rfl hcnull
  case cpush cp _ _ | cpushFull cp _ _ => exact absurd rfl (hcpush cp)
  all_goals exact ⟨rfl, rfl⟩

theorem Effect.keeps_cvalid {i : Instr} {s t : State} (h : Effect i s t) (hcstart : i ≠ .cstart)
    (hcnull : i ≠ .cnull) : t.cvalid = s.cvalid := by
  cases h
  case cstart => exact absurd rfl hcstart
  case cnull => exact absurd rfl hcnull
  all_goals rfl

theorem Effect.keeps_res {i : Instr} {s t : State} (h : Effect i s t) (hqrsv : ∀ r c, i ≠ .qrsv r c) :
    t.res = s.res := by
  cases h
  case qrsv r c _ _ => exact absurd rfl (hqrsv r c)
  all_goals rfl

theorem Effect.keeps_port {i : Instr} {s t : State} (h : Effect i s t) :
    t.pending = s.pending ∧ t.answers = s.answers := by
  cases h
  all_goals exact ⟨rfl, rfl⟩

/-- Settles O24: one lemma per piece of the state. -/
theorem whichCommandWritesWhat : Obligations.WhichCommandWritesWhat := by
  intro i s t h
  have heff := effect_of_exec h
  exact ⟨heff.keeps_g, heff.keeps_stream, heff.keeps_content, heff.keeps_cvalid, heff.keeps_res, heff.keeps_port⟩

/-! ## Content -/

@[simp] theorem contentByte_zeroContent (i : Nat) : contentByte zeroContent i = 0#8 := by
  unfold contentByte zeroContent
  split <;> simp

theorem contentByte_set_other (cbuf : Vector Byte 17) {k i : Nat} (hk : k < 17) (b : Byte) (h : i ≠ k) :
    contentByte (cbuf.set k b hk) i = contentByte cbuf i := by
  unfold contentByte
  split
  · exact Vector.getElem_set_ne hk _ h.symm
  · rfl

/-! ## What each part of the invariant reads -/

theorem StreamWf.congr {s t : State} (h : StreamWf s) (hbs : t.bs = s.bs) (hlen : t.bslen = s.bslen) : StreamWf t := by
  unfold StreamWf
  rw [hbs, hlen]
  exact h

theorem streamWf_of_full {s : State} (h : s.bslen = 208) : StreamWf s := by
  intro i hi hle
  rw [h] at hle
  exact absurd hi (Nat.not_lt.mpr hle)

theorem streamWf_of_zeroStream {s : State} (h : s.bs = zeroStream) : StreamWf s := by
  intro i _ _
  rw [h, streamBit_zeroStream]

theorem ContentWf.congr {s t : State} (h : ContentWf s) (hv : t.cvalid = s.cvalid) (hlen : t.clen = s.clen)
    (hbuf : t.cbuf = s.cbuf) : ContentWf t := by
  unfold ContentWf
  rw [hv, hlen, hbuf]
  exact h

theorem contentWf_of_zeroContent {s : State} (hbuf : s.cbuf = zeroContent) (hlen : s.clen = 0) : ContentWf s := by
  refine ⟨fun _ => hlen, fun i _ _ => ?_⟩
  rw [hbuf, contentByte_zeroContent]

theorem contentWf_of_saturated {s : State} (hv : s.cvalid = true) (hlen : 17 ≤ s.clen.val) : ContentWf s :=
  ⟨fun hf => (nomatch hv.symm.trans hf), fun _ hi hge => absurd hi (Nat.not_lt.mpr (hlen.trans hge))⟩

theorem HoldsStream.congr {cfg : Config} {s t : State} (h : HoldsStream cfg s) (hbs : t.bs = s.bs)
    (hlen : t.bslen = s.bslen) : HoldsStream cfg t := by
  unfold HoldsStream
  rw [hbs, hlen]
  exact h

theorem StageInv.congr {cfg : Config} {s t : State} (h : StageInv cfg s) (hg : t.g = s.g) (hbs : t.bs = s.bs)
    (hlen : t.bslen = s.bslen) (hstg : t.stg = s.stg) : StageInv cfg t := by
  unfold StageInv HoldsStream
  rw [hg, hbs, hlen, hstg]
  exact h

/-- The invariant reads the grid, the stream, the content and STG only. -/
theorem Inv.congr {cfg : Config} {s t : State} (h : Inv cfg s) (hg : t.g = s.g) (hbs : t.bs = s.bs)
    (hlen : t.bslen = s.bslen) (hv : t.cvalid = s.cvalid) (hclen : t.clen = s.clen) (hbuf : t.cbuf = s.cbuf)
    (hstg : t.stg = s.stg) : Inv cfg t := by
  obtain ⟨hstream, hcontent, hstage⟩ := h
  exact ⟨hstream.congr hbs hlen, hcontent.congr hv hclen hbuf, hstage.congr hg hbs hlen hstg⟩

/-! ## What each command does to its row of the table -/

/-- The abort state and the reset state meet row STG = 0. -/
theorem stageInv_of_empty {cfg : Config} {s : State} (hstg : s.stg = .empty) (hg : s.g = Grid.light)
    (hlen : s.bslen = 0) : StageInv cfg s := by
  rw [StageInv, hstg]
  exact ⟨fun r c => hg ▸ Grid.get_light r c, hlen⟩

theorem stageInv_abort (cfg : Config) (s : State) : StageInv cfg (abort s) := stageInv_of_empty rfl rfl rfl

theorem stageInv_clr (cfg : Config) (s : State) (bs : Vector Bool 208) (err : ErrMask) :
    StageInv cfg { s with g := Grid.light, bs := bs, bslen := 0, err := err, stg := .alloc } :=
  ⟨Grid.get_light, rfl⟩

theorem StageInv.pstruct {cfg : Config} {s : State} (h : StageInv cfg s) (hstg : s.stg = .alloc) :
    StageInv cfg { s with g := s.g.writeAll structWrites, stg := .struct } := by
  rw [StageInv, hstg] at h
  obtain ⟨hlight, hlen⟩ := h
  refine ⟨fun r c hr hc => ?_, hlen⟩
  rw [get_structWrites _ hr hc, hlight, structValue_s1 r hr c hc]

/-- PFORMAT's writes turn S1 into S2 (R88). -/
theorem holdsS2_formatWrites (w : BitVec 15) {g : Grid} (h : ∀ r c, r < 21 → c < 21 → g.get r c = s1Cell r c) :
    HoldsS2 w (g.writeAll (formatWrites w)) := by
  intro r c hr hc
  rw [get_formatWrites _ _ hr hc, h r c hr hc]
  rfl

theorem StageInv.pformat {cfg : Config} {s : State} (h : StageInv cfg s) (hstg : s.stg = .struct) :
    StageInv cfg { s with g := s.g.writeAll (formatWrites cfg.formatWord), stg := .format } := by
  rw [StageInv, hstg] at h
  obtain ⟨hs1, hlen⟩ := h
  exact ⟨holdsS2_formatWrites _ hs1, hlen⟩

theorem StageInv.encode {cfg : Config} {s : State} (h : StageInv cfg s) (hstg : s.stg = .format)
    (hl : s.clen.val ≤ 17) :
    StageInv cfg { s with bs := encodedStream s.bs s.clen.val s.cbuf, bslen := 152, stg := .encoded } := by
  rw [StageInv, hstg] at h
  obtain ⟨hs2, -⟩ := h
  exact ⟨hs2, rfl, s.clen.val, contentByte s.cbuf, hl, encodedStream_holdsData s.bs hl s.cbuf⟩

theorem HoldsData.concat {bs : Vector Bool 208} {n : Nat} {b : Nat → Byte} (h : HoldsData bs n b)
    (f : Vector Bool 152 → Vector Bool 56) : HoldsData (concatStream f bs) n b := by
  intro i hi
  rw [streamBit_concat_data f bs hi]
  exact h i hi

theorem StageInv.ecccat {cfg : Config} {s : State} (h : StageInv cfg s) (hstg : s.stg = .encoded) :
    StageInv cfg { s with bs := concatStream cfg.eccFn s.bs, bslen := 208, stg := .concat } := by
  rw [StageInv, hstg] at h
  obtain ⟨hs2, -, n, b, hn, hdata⟩ := h
  exact ⟨hs2, rfl, ⟨n, b, hn, hdata.concat cfg.eccFn⟩, holdsEcc_concat cfg.eccFn s.bs⟩

theorem holdsReserved_placeGrid {w : BitVec 15} {g : Grid} (h : HoldsS2 w g) (bs : Vector Bool 208) (n : Nat) :
    HoldsReserved w (placeGrid bs n g) := by
  intro r c hr hc hres
  rw [get_placeGrid_reserved bs n g (by rw [isReserved_eq hr hc, hres]), h r c hr hc]

theorem StageInv.place {cfg : Config} {s : State} (h : StageInv cfg s) (hstg : s.stg = .concat) :
    StageInv cfg { s with g := placeGrid s.bs s.bslen.val s.g, stg := .placed } := by
  rw [StageInv, hstg] at h
  obtain ⟨hs2, hstream⟩ := h
  simp only [StageInv]
  refine ⟨holdsReserved_placeGrid hs2 s.bs s.bslen.val, hstream.congr rfl rfl, fun i rc hi => ?_⟩
  have hlen : s.bslen = 208 := hstream.1
  rw [get_placeGrid_free s.bs _ s.g (by rw [placeOrder_eq, hi]), hlen]
  rfl

theorem holdsReserved_maskGrid {w : BitVec 15} {g : Grid} (h : HoldsReserved w g) : HoldsReserved w (maskGrid g) := by
  intro r c hr hc hres
  rw [get_maskGrid g hr hc, if_pos (by rw [isReserved_eq hr hc, hres]), h r c hr hc hres]

theorem StageInv.mask {cfg : Config} {s : State} (h : StageInv cfg s) (hstg : s.stg = .placed) :
    StageInv cfg { s with g := maskGrid s.g, stg := .done } := by
  rw [StageInv, hstg] at h
  obtain ⟨hres, hstream, hfree⟩ := h
  simp only [StageInv]
  refine ⟨holdsReserved_maskGrid hres, hstream.congr rfl rfl, fun i rc hi => ?_⟩
  obtain ⟨hr, hc, hnot, -⟩ := placeTable_bounds hi
  rw [get_maskGrid s.g hr hc, if_neg (by simp [hnot]), hfree i rc hi, maskBit]

theorem stageInv_gen (cfg : Config) (s : State) (err : ErrMask) (hl : s.clen.val ≤ 17) :
    StageInv cfg { s with g := genGrid cfg s.clen.val s.cbuf, bs := genStream cfg s.clen.val s.cbuf, bslen := 208,
                          err := err, stg := .done } := by
  simp only [StageInv]
  refine ⟨fun r c hr hc hres => get_genGrid_reserved cfg _ _ hr hc hres,
    ⟨rfl, ⟨_, contentByte s.cbuf, hl, ?_⟩, ?_⟩, fun i rc hi => ?_⟩
  · exact genStream_holdsData cfg hl s.cbuf
  · exact holdsEcc_concat cfg.eccFn _
  · exact get_genGrid_free cfg _ _ hi

/-! ## A command keeps the invariant -/

/-- From an empty stream at STG = 3 a completed ENCODE stored the closed form of R103. -/
theorem encodeRun_stored {s : State} {bs : Vector Bool 208} {n : Fin 209} (hstg : s.stg = .format) (hempty : s.bslen = 0)
    (hv : s.cvalid = true) (hl : s.clen.val ≤ 17)
    (h : encodeRun s = .completed { s with bs := bs, bslen := n, stg := .encoded }) :
    bs = encodedStream s.bs s.clen.val s.cbuf ∧ n = 152 := by
  rw [encodeRun_completed hstg hempty hv hl] at h
  cases h
  exact ⟨rfl, rfl⟩

theorem Effect.keeps_stageInv {i : Instr} {s t : State} (h : Effect i s t) (hinv : Inv config s) : StageInv config t := by
  have ⟨_, _, hstage⟩ := hinv
  cases h
  case illegal | nop | cstart | cnull | cpush | cpushFull | qrsv => exact hstage.congr rfl rfl rfl rfl
  case clr => exact stageInv_clr config s _ _
  case pstruct hstg => exact hstage.pstruct hstg
  case pformat hstg => exact hstage.pformat hstg
  case encode bs n hstg hv hl hrun =>
    obtain ⟨rfl, rfl⟩ := encodeRun_stored hstg (hinv.bslen_of_format hstg) hv hl hrun
    exact hstage.encode hstg hl
  case ecccat hstg => exact hstage.ecccat hstg
  case place hstg => exact hstage.place hstg
  case mask hstg => exact hstage.mask hstg
  case gen hl => exact stageInv_gen config s _ hl
  case encodeNull | encodeOver | genNull | genOver => exact stageInv_abort config _

theorem StreamWf.encode {s : State} (h : StreamWf s) (hempty : s.bslen = 0) (hl : s.clen.val ≤ 17) :
    StreamWf { s with bs := encodedStream s.bs s.clen.val s.cbuf, bslen := 152, stg := .encoded } := by
  intro i hi hge
  rw [encodedStream_rest s.bs hl s.cbuf hge hi]
  exact h i hi (by simp [hempty])

theorem Effect.keeps_streamWf {i : Instr} {s t : State} (h : Effect i s t) (hinv : Inv config s) : StreamWf t := by
  have ⟨hstream, _, _⟩ := hinv
  cases h
  case encode bs n hstg hv hl hrun =>
    have hempty := hinv.bslen_of_format hstg
    obtain ⟨rfl, rfl⟩ := encodeRun_stored hstg hempty hv hl hrun
    exact hstream.encode hempty hl
  case ecccat | gen => exact streamWf_of_full rfl
  case clr | encodeNull | encodeOver | genNull | genOver => exact streamWf_of_zeroStream rfl
  all_goals exact hstream.congr rfl rfl

/-- CPUSH writes at index CLEN and moves CLEN past it (R95). -/
theorem ContentWf.cpush {s : State} (h : ContentWf s) (hv : s.cvalid = true) (b : Byte) (hl : s.clen.val ≤ 16) :
    ContentWf { s with cbuf := s.cbuf.set s.clen.val b (by omega), clen := ⟨s.clen.val + 1, by omega⟩ } := by
  obtain ⟨-, hpast⟩ := h
  refine ⟨fun hf => (nomatch hv.symm.trans hf), fun i hi hge => ?_⟩
  have hge : s.clen.val + 1 ≤ i := hge
  rw [contentByte_set_other _ _ _ (by omega)]
  exact hpast i hi (by omega)

theorem Effect.keeps_contentWf {i : Instr} {s t : State} (h : Effect i s t) (hc : ContentWf s) : ContentWf t := by
  cases h
  case cstart | cnull => exact contentWf_of_zeroContent rfl rfl
  case cpush cp hl hv => exact hc.cpush hv (lowByte cp) hl
  case cpushFull hv _ => exact contentWf_of_saturated hv (Nat.le_succ 17)
  all_goals exact hc.congr rfl rfl rfl

/-- R25 along every command. -/
theorem Effect.keeps_inv {i : Instr} {s t : State} (h : Effect i s t) (hinv : Inv config s) : Inv config t := by
  have ⟨_, hcontent, _⟩ := hinv
  exact ⟨h.keeps_streamWf hinv, h.keeps_contentWf hcontent, h.keeps_stageInv hinv⟩

/-! ## What a step can do -/

/-- The ways a step can end in a next state: wait, answer a read, run a command, take an illegal word, reset. -/
inductive StepEffect : State → State → Prop
  | wait (s : State) : s.pending = [] → StepEffect s s
  | answer (s : State) (a : Access) (v : Word) (rest : List PortEvent) : s.pending = .read a :: rest →
      accessProblem a = none → readRegister config s a.reg = some v →
      StepEffect s { s with pending := rest, answers := s.answers ++ [v] }
  | command (s t : State) (a : Access) (w : Word) (i : Instr) (rest : List PortEvent) : s.pending = .write a w :: rest →
      accessProblem a = none → a.reg = 0x00 → decode w = .ok i → Effect i { s with pending := rest } t →
      StepEffect s t
  | illegalWord (s : State) (a : Access) (w : Word) (e : DecodeError) (rest : List PortEvent) :
      s.pending = .write a w :: rest → accessProblem a = none → a.reg = 0x00 → decode w = .error e →
      StepEffect s { s with pending := rest, err := { s.err with ill := true } }
  | reset (s : State) (rest : List PortEvent) : s.pending = .reset :: rest →
      StepEffect s (resetEngine { s with pending := rest })

theorem serveRead_next {a : Access} {s t : State} (h : serveRead a s = .next t) :
    accessProblem a = none ∧
      ∃ v, readRegister config s a.reg = some v ∧ t = { s with answers := s.answers ++ [v] } := by
  unfold serveRead at h
  split at h
  · cases h
  next hport =>
    split at h
    next v hv => exact ⟨hport, v, hv, (next_inj h).symm⟩
    next => cases h

theorem serveWrite_next {a : Access} {w : Word} {s t : State} (h : serveWrite a w s = .next t) :
    accessProblem a = none ∧ a.reg = 0x00 ∧ runWord w s = .next t := by
  unfold serveWrite at h
  split at h
  · cases h
  next hport =>
    split at h
    next hreg => exact ⟨hport, hreg, h⟩
    next => cases h

theorem runWord_next {w : Word} {s t : State} (h : runWord w s = .next t) :
    (∃ i, decode w = .ok i ∧ Effect i s t) ∨
    (∃ e, decode w = .error e ∧ t = { s with err := { s.err with ill := true } }) := by
  unfold runWord at h
  split at h
  next i hi => exact .inl ⟨i, hi, effect_of_exec h⟩
  next e he => exact .inr ⟨e, he, (next_inj h).symm⟩

/-- Everything a step can do when it ends in a next state (R40, R43, R44, R150, R151). -/
theorem stepEffect_of_step {s t : State} (h : step s = .next t) : StepEffect s t := by
  unfold step at h
  split at h
  next hnone => exact next_inj h ▸ .wait s hnone
  next e rest hpend =>
    cases e with
    | read a =>
      obtain ⟨hport, v, hv, rfl⟩ := serveRead_next h
      exact .answer s a v rest hpend hport hv
    | write a w =>
      obtain ⟨hport, hreg, hrun⟩ := serveWrite_next h
      rcases runWord_next hrun with ⟨i, hi, heff⟩ | ⟨e, he, rfl⟩
      · exact .command s t a w i rest hpend hport hreg hi heff
      · exact .illegalWord s a w e rest hpend hport hreg he
    | reset => exact next_inj h ▸ .reset s rest hpend

/-! ## The invariant along a run -/

theorem inv_reset (cfg : Config) (events : List PortEvent) (answers : List Word) :
    Inv cfg { State.reset with pending := events, answers := answers } :=
  ⟨streamWf_of_zeroStream rfl, contentWf_of_zeroContent rfl rfl, stageInv_of_empty rfl rfl rfl⟩

theorem StepEffect.keeps_inv {s t : State} (h : StepEffect s t) (hinv : Inv config s) : Inv config t := by
  cases h
  case wait => exact hinv
  case answer | illegalWord => exact hinv.congr rfl rfl rfl rfl rfl rfl rfl
  case command rest _ _ _ _ heff => exact heff.keeps_inv (hinv.congr rfl rfl rfl rfl rfl rfl rfl)
  case reset rest _ => exact inv_reset config rest s.answers

/-- Settles O50: every way a step can end keeps the invariant; for a command this is R25's table, row by row. -/
theorem everyStepKeepsTheStageInvariant : Obligations.EveryStepKeepsTheStageInvariant :=
  fun _ _ hinv h => (stepEffect_of_step h).keeps_inv hinv

/-- Settles O51: row STG = 0 of R25, with the stream and the content all zero. -/
theorem resetMeetsTheStageInvariant : Obligations.ResetMeetsTheStageInvariant :=
  fun events => inv_reset config events []

theorem run_succ_of_fault {s : State} {f : Fault} (k : Nat) (h : step s = .fault f) : core.run (k + 1) s = .fault f := by
  have h' : core.step s = .fault f := h
  simp only [Host.Core.run, h']

theorem run_succ_of_refused {s : State} {r : Refusal} (k : Nat) (h : step s = .refused r) :
    core.run (k + 1) s = .refused r := by
  have h' : core.step s = .refused r := h
  simp only [Host.Core.run, h']

/-- What every step keeps holds at the end of every run. -/
theorem run_keeps {P : State → Prop} (hstep : ∀ s t, P s → step s = .next t → P t) :
    ∀ (k : Nat) (s t : State), P s → core.run k s = .next t → P t
  | 0, _, _, hs, h => next_inj h ▸ hs
  | k + 1, s, t, hs, h => by
    cases hu : step s with
    | next u =>
      rw [run_succ_of_step k hu] at h
      exact run_keeps hstep k u t (hstep s u hs hu) h
    | fault f =>
      rw [run_succ_of_fault k hu] at h
      cases h
    | refused r =>
      rw [run_succ_of_refused k hu] at h
      cases h

theorem inv_of_reachable {s : State} (h : Reachable s) : Inv config s := by
  obtain ⟨events, k, hrun⟩ := h
  exact run_keeps everyStepKeepsTheStageInvariant k _ s (inv_reset config events []) hrun

/-- Settles O52: the invariant of a reachable state says all three parts. -/
theorem reachableStatesMeetTheStageTable : Obligations.ReachableStatesMeetTheStageTable := by
  intro s h
  obtain ⟨hstream, ⟨hnull, -⟩, hstage⟩ := inv_of_reachable h
  exact ⟨hstage, hstream, hnull⟩

/-- Settles O54: DONE is STG = 7 (R19), and row STG = 7 of R25 is the finished grid. -/
theorem doneMeansAFinishedGrid : Obligations.DoneMeansAFinishedGrid := by
  intro s h hdone
  obtain ⟨-, -, hstage⟩ := inv_of_reachable h
  have hstg : s.stg = .done := eq_of_beq hdone
  rw [StageInv, hstg] at hstage
  obtain ⟨hres, ⟨-, hdata, hecc⟩, hfree⟩ := hstage
  exact ⟨hres, hdata, hecc, hfree⟩

end Sys2Proof.Machine
end

section
/-! PROOFS of the family 20_memory: the words of the commands decode to them, what a step does with the oldest pending
access, which accesses are refused, what the grid and stream registers show, and a sequence of words written to CMD. -/

namespace Sys2Proof

/-! ## The word of a command -/

theorem opField_encode (i : Instr) : opField (encode i) = i.op := BitVec.extractLsb'_append_eq_left

theorem operandField_encode (i : Instr) : (encode i).extractLsb' 0 24 = i.operandBits :=
  BitVec.extractLsb'_append_eq_right

theorem decodeZ_encode {i : Instr} (h : i.operandBits = 0#24) : decodeZ (encode i) i = .ok i :=
  if_pos ((operandField_encode i).trans h)

theorem decodeC_encode (cp : BitVec 24) : decodeC (encode (.cpush cp)) = .ok (.cpush cp) :=
  congrArg (fun operand => Except.ok (Instr.cpush operand)) (operandField_encode (.cpush cp))

/-- The word's number is 0x20000000 + 256 r + c (R59), so that its fields are digits of it. -/
theorem decodeQ_encode {r c : Nat} (hr : r < 32) (hc : c < 32) :
    decodeQ (encode (.qrsv r c)) = .ok (.qrsv r c) := by
  have hword : (encode (.qrsv r c)).toNat = 0x20000000 + 256 * (r % 32) + c % 32 := Laws.WordNumber.qrsv r c
  have hrow : (encode (.qrsv r c)).toNat / 256 % 32 = r := by omega
  have hcol : (encode (.qrsv r c)).toNat % 32 = c := by omega
  exact (decodeQ_ok_iff _ _).mpr ⟨by omega, by omega, by rw [hrow, hcol]⟩

/-- The op field selects the command's own row of R52, and that row reads the operands back (R51, R53). -/
theorem decode_encode {i : Instr} (h : i.wellFormed = true) : decode (encode i) = .ok i := by
  rw [decode, opField_encode]
  cases i
  case cpush cp => exact decodeC_encode cp
  case qrsv r c =>
    obtain ⟨hr, hc⟩ : r < 32 ∧ c < 32 := by simpa [Instr.wellFormed] using h
    exact decodeQ_encode hr hc
  all_goals exact decodeZ_encode rfl

end Sys2Proof

namespace Sys2Proof.Machine

/-! ## Serving one access -/

theorem step_of_pending {s : State} {e : PortEvent} {rest : List PortEvent} (h : s.pending = e :: rest) :
    step s = serve e { s with pending := rest } := by
  rw [step, h]

theorem serve_cmdWrite (w : Word) (s : State) : serve (cmdWrite w) s = runWord w s := rfl

theorem runWord_of_ok {w : Word} {i : Instr} (s : State) (h : decode w = .ok i) : runWord w s = exec i s := by
  rw [runWord, h]

theorem runWord_of_error {w : Word} {e : DecodeError} (s : State) (h : decode w = .error e) :
    runWord w s = .next { s with err := { s.err with ill := true } } := by
  rw [runWord, h, raise_illegalCommand]

/-- The registers do not show the host's list of pending accesses. -/
theorem readRegister_withPending (cfg : Config) (s : State) (n : Nat) (rest : List PortEvent) :
    readRegister cfg { s with pending := rest } n = readRegister cfg s n := rfl

theorem serve_regRead {s : State} {n : Nat} {v : Word} (h : readRegister config s n = some v) :
    serve (regRead n) s = .next { s with answers := s.answers ++ [v] } := by
  show serveRead { reg := n } s = _
  rw [serveRead, h]
  rfl

/-- Settles O7: the step serves the CMD write, and the word decodes to i. -/
theorem stepRunsTheDecodedCommand : Obligations.StepRunsTheDecodedCommand := by
  intro s w i rest hpend hdec
  rw [step_of_pending hpend, serve_cmdWrite, runWord_of_ok _ hdec]

/-- Settles O8: the step serves the CMD write, and an illegal word raises IllegalCommand. -/
theorem stepOfAnIllegalWord : Obligations.StepOfAnIllegalWord := by
  intro s w e rest hpend hdec
  rw [step_of_pending hpend, serve_cmdWrite, runWord_of_error _ hdec]

/-- Settles O10: serving the read appends the value the register has in s itself. -/
theorem registerReadsHaveNoSideEffect : Obligations.RegisterReadsHaveNoSideEffect := by
  intro s n v rest hpend hv
  rw [step_of_pending hpend, serve_regRead ((readRegister_withPending config s n rest).trans hv)]

/-! ## Refusals -/

/-- R39, R40: the port carries aligned 32-bit accesses. -/
theorem accessProblem_eq_none_iff (a : Access) : accessProblem a = none ↔ a.bits = 32 ∧ a.aligned = true := by
  unfold accessProblem
  split
  next hbits => simp [hbits]
  next hbits =>
    rw [not_ne_iff] at hbits
    cases ha : a.aligned <;> simp [hbits]

theorem exec_ne_refused (i : Instr) (s : State) (r : Refusal) : exec i s ≠ .refused r := by
  rcases exec_next_or_stopped i s with ⟨t, h⟩ | ⟨f, h, -⟩ <;> simp [h]

/-- No command word is refused: it runs or it raises. -/
theorem runWord_ne_refused (w : Word) (s : State) (r : Refusal) : runWord w s ≠ .refused r := by
  cases hdec : decode w with
  | ok i => exact runWord_of_ok s hdec ▸ exec_ne_refused i s r
  | error e => simp [runWord_of_error s hdec]

theorem serveRead_refused_iff (a : Access) (s : State) :
    (∃ r, serveRead a s = .refused r) ↔ ¬(accessProblem a = none) ∨ readRegister config s a.reg = none := by
  unfold serveRead
  cases accessProblem a with
  | some r => simp
  | none => cases readRegister config s a.reg <;> simp

theorem serveWrite_refused_iff (a : Access) (w : Word) (s : State) :
    (∃ r, serveWrite a w s = .refused r) ↔ ¬(accessProblem a = none) ∨ a.reg ≠ 0x00 := by
  unfold serveWrite
  cases accessProblem a with
  | some r => simp
  | none => by_cases hreg : a.reg = 0x00 <;> simp [hreg, runWord_ne_refused]

/-- Settles O11: a refused read has a wrong shape or an unmapped number, a refused write a wrong shape or another number
than CMD's; the words written never make a refusal. -/
theorem accessesOutsideTheContract : Obligations.AccessesOutsideTheContract := by
  intro s a w rest
  have hshape : ¬(accessProblem a = none) ↔ a.bits ≠ 32 ∨ a.aligned = false := by
    rw [accessProblem_eq_none_iff, not_and_or, Bool.not_eq_true]
  constructor
  · intro hpend
    rw [step_of_pending hpend, serve, serveRead_refused_iff, hshape, readRegister_eq_none_iff, or_assoc]
  · intro hpend
    rw [step_of_pending hpend, serve, serveWrite_refused_iff, hshape, or_assoc]

/-! ## Grid rows -/

/-- Bit c of GROWr with the zeros above bit 20, where no cell stands (R38). -/
theorem getLsbD_growWord_ite (g : Grid) (r : Nat) {c : Nat} (h : c < 32) :
    (growWord g r).getLsbD c = if c < 21 then g.get r c else false := by
  rw [getLsbD_growWord g r h]
  split
  next => rfl
  next hcol => exact Grid.get_outside g fun hin => hcol hin.2

/-- PSTRUCT's writes turn a light grid into S1 (R80). -/
theorem get_structWrites_of_light {g : Grid} (hlight : ∀ r c, g.get r c = false) {r c : Nat} (hr : r < 21)
    (hc : c < 21) : (g.writeAll structWrites).get r c = s1Cell r c := by
  rw [get_structWrites g hr hc, hlight, structValue_s1 r hr c hc]

theorem s1Row_lt : ∀ r, r < 21 → s1Rows.getD r 0 < 2 ^ 21 := by decide

/-- A grid that holds S1 shows R80's table, one register per row (R38). -/
theorem growWord_of_s1 {g : Grid} (h : ∀ r c, r < 21 → c < 21 → g.get r c = s1Cell r c) {r : Nat} (hr : r < 21) :
    growWord g r = BitVec.ofNat 32 (s1Rows.getD r 0) := by
  refine BitVec.eq_of_getLsbD_eq fun c hc => ?_
  rw [getLsbD_growWord_ite g r hc, BitVec.getLsbD_ofNat, decide_eq_true hc, Bool.true_and]
  split
  next hcol => exact h r c hr hcol
  next hcol =>
    have hlt : s1Rows.getD r 0 < 2 ^ c := (s1Row_lt r hr).trans_le (Nat.pow_le_pow_right two_pos (not_lt.mp hcol))
    exact (Nat.testBit_lt_two_pow hlt).symm

/-- Settles O13: GROWr bit by bit, with no cell outside the grid; the example is row 0 of R80's S1. -/
theorem gridRowRegisters : Obligations.GridRowRegisters := by
  constructor
  · exact fun cfg s r hr => ⟨growWord s.g r, readRegister_grow cfg s hr, fun _ hc => getLsbD_growWord_ite s.g r hc⟩
  · intro cfg s t hstg hlight h
    rw [exec_eq_bodyOf, bodyOf, pstructRun_of_stg hstg] at h
    obtain rfl := next_inj h
    have hrow : growWord (s.g.writeAll structWrites) 0 = 0x001FC07F#32 :=
      growWord_of_s1 (fun _ _ => get_structWrites_of_light hlight) (by decide)
    exact (readRegister_grow cfg _ (r := 0) (by decide)).trans (congrArg some hrow)

/-! ## Stream words -/

/-- The closed form of R103 reads the first n bytes only. -/
theorem encodedBits_congr {n : Nat} {b b' : Nat → Byte} (h : ∀ i, i < n → b i = b' i) :
    encodedBits n b = encodedBits n b' := by
  have hpayload : ((List.range n).flatMap fun i => numberBits 8 (b i).toNat) =
      (List.range n).flatMap fun i => numberBits 8 (b' i).toNat :=
    List.flatMap_congr fun i hi => by rw [h i (List.mem_range.mp hi)]
  rw [encodedBits, encodedBits, hpayload]

/-- The bytes of "HI" (R37). -/
def hiBytes (i : Nat) : Byte := if i = 0 then 0x48#8 else 0x49#8

/-- The first word of the data of "HI": 0100, the count 2, the two bytes, the terminator (R37, R103). -/
theorem encodedBits_hi : ∀ k, k < 32 → (encodedBits 2 hiBytes)[31 - k]? = some (BitVec.getLsbD 0x40248490#32 k) := by
  decide

/-- Bits of BSW6 below 16 have stream indices past 207 (R37). -/
theorem getLsbD_bswWord_six (bs : Vector Bool 208) {b : Nat} (h : b < 16) : (bswWord bs 6).getLsbD b = false := by
  rw [bswWord, getLsbD_wordOfBits _ (by omega), streamBit_outside _ (by omega)]

theorem getLsbD_bswWord_zero (bs : Vector Bool 208) {k : Nat} (h : k < 32) :
    (bswWord bs 0).getLsbD k = streamBit bs (31 - k) := by
  rw [bswWord, getLsbD_wordOfBits _ h, Nat.mul_zero, Nat.zero_add]

/-- Settles O14: BSWk bit by bit; past BSLEN R12 makes the stream 0; the example is the first word of R103's bits. -/
theorem streamWordRegisters : Obligations.StreamWordRegisters := by
  refine ⟨fun cfg s i hi => ?_, fun cfg s => ?_, fun cfg s b hH hI hdata => ?_⟩
  · have hbit := getLsbD_bswWord s.bs i
    exact ⟨bswWord s.bs (i / 32), readRegister_bsw cfg s (by omega), hbit, fun hwf hle => hbit.trans (hwf i hi hle)⟩
  · exact ⟨bswWord s.bs 6, readRegister_bsw cfg s (k := 6) (by decide), fun b hb => getLsbD_bswWord_six s.bs hb⟩
  · have hbytes : encodedBits 2 b = encodedBits 2 hiBytes := by
      refine encodedBits_congr fun i hi => ?_
      interval_cases i
      · exact hH
      · exact hI
    have hword : bswWord s.bs 0 = 0x40248490#32 := by
      refine BitVec.eq_of_getLsbD_eq fun k hk => Option.some.inj ?_
      rw [getLsbD_bswWord_zero s.bs hk, ← hdata (31 - k) (by omega), hbytes, encodedBits_hi k hk]
    exact (readRegister_bsw cfg s (k := 0) (by decide)).trans (congrArg some hword)

/-! ## Sequences of commands -/

/-- What is pending does not change what a command does (R43). -/
theorem exec_withPending {i : Instr} {s t : State} (h : exec i s = .next t) (p : List PortEvent) :
    exec i { s with pending := p } = .next { t with pending := p } := by
  have hans : t.answers = s.answers := (effect_of_exec h).keeps_port.2
  rw [exec_eq_bodyOf] at h
  rw [exec_eq_bodyOf, bodyOf_withPort i s p s.answers, outcome_map_of_next _ h, ← hans]

theorem runAll_cons_next {i : Instr} {is : List Instr} {s t : State} (h : runAll (i :: is) s = .next t) :
    ∃ u, exec i s = .next u ∧ runAll is u = .next t := by
  rw [runAll] at h
  cases hu : exec i s with
  | next u => exact ⟨u, rfl, by rwa [hu] at h⟩
  | fault f => rw [hu] at h; cases h
  | refused r => rw [hu] at h; cases h

theorem runAll_keeps_pending {is : List Instr} {s t : State} (h : runAll is s = .next t) : t.pending = s.pending := by
  induction is generalizing s with
  | nil => rw [next_inj h]
  | cons i is ih =>
    obtain ⟨u, hu, hrest⟩ := runAll_cons_next h
    rw [ih hrest, (effect_of_exec hu).keeps_port.1]

/-- A step with the word of a well-formed command pending runs that command (R44, R50). -/
theorem step_cmdWrite_encode {i : Instr} {s t : State} (hwf : i.wellFormed = true) (h : exec i s = .next t)
    (rest : List PortEvent) :
    step { s with pending := cmdWrite (encode i) :: rest } = .next { t with pending := rest } :=
  (stepRunsTheDecodedCommand _ (encode i) i rest rfl (decode_encode hwf)).trans (exec_withPending h rest)

/-- The words of a sequence, with any accesses behind them, run as the sequence and leave those accesses pending. -/
theorem run_cmdWrites {is : List Instr} {s t : State} (hwf : ∀ i ∈ is, i.wellFormed = true)
    (h : runAll is s = .next t) (rest : List PortEvent) :
    core.run is.length { s with pending := cmdWrites is ++ rest } = .next { t with pending := rest } := by
  induction is generalizing s with
  | nil =>
    obtain rfl := next_inj h
    rfl
  | cons i is ih =>
    obtain ⟨u, hu, hrest⟩ := runAll_cons_next h
    obtain ⟨hi, his⟩ := List.forall_mem_cons.mp hwf
    exact (run_succ_of_step is.length (step_cmdWrite_encode hi hu (cmdWrites is ++ rest))).trans (ih his hrest)

/-- Settles O15: by induction over the sequence with the later words still pending; at the end nothing is. -/
theorem writtenSequencesRunInOrder : Obligations.WrittenSequencesRunInOrder := by
  intro is s t hwf hpend h
  have hrun := run_cmdWrites hwf h []
  have hnone : t.pending = [] := (runAll_keeps_pending h).trans hpend
  rw [List.append_nil, ← hnone] at hrun
  exact hrun

end Sys2Proof.Machine
end

section
/-! PROOFS of the family 30_encoding: the decoder by the four kinds of op value, its match/mask table and its illegal words,
the operand fields, the assembler's forms, and what the two pseudo-instructions do. -/

namespace Sys2Proof

/-! ## The decoder by op value -/

theorem decode_of_plainOp {w : Word} {i : Instr} (hi : i ∈ Machine.plainCommands) (hop : opField w = i.op) :
    decode w = decodeZ w i := by
  rw [decode, hop]
  fin_cases hi <;> rfl

theorem decode_of_cpushOp {w : Word} (hop : opField w = 0x11#8) : decode w = decodeC w := by
  rw [decode, hop]
  rfl

theorem decode_of_qrsvOp {w : Word} (hop : opField w = 0x20#8) : decode w = decodeQ w := by
  rw [decode, hop]
  rfl

/-- The op values of format Z (R51, R52). -/
def plainOps : List Nat := Machine.plainCommands.map fun i => i.op.toNat

theorem plainOps_eq : plainOps = [0x00, 0x01, 0x02, 0x03, 0x04, 0x05, 0x06, 0x07, 0x08, 0x10, 0x12] := rfl

theorem decode_of_undefinedOp {w : Word} (hplain : (opField w).toNat ∉ plainOps) (hcpush : (opField w).toNat ≠ 0x11)
    (hqrsv : (opField w).toNat ≠ 0x20) : decode w = .error .undefinedOp := by
  rw [plainOps_eq] at hplain
  unfold decode
  split
  case h_14 => rfl
  all_goals simp_all

/-- The decoder by the kind of the word's op value: format Z, C, Q, or none of the thirteen (R51, R52, R54(a)). -/
theorem decode_cases (w : Word) :
    (∃ i ∈ Machine.plainCommands, opField w = i.op ∧ decode w = decodeZ w i) ∨
    (opField w = 0x11#8 ∧ decode w = decodeC w) ∨
    (opField w = 0x20#8 ∧ decode w = decodeQ w) ∨
    ((opField w).toNat ∉ plainOps ∧ opField w ≠ 0x11#8 ∧ opField w ≠ 0x20#8 ∧ decode w = .error .undefinedOp) := by
  by_cases hplain : (opField w).toNat ∈ plainOps
  · obtain ⟨i, hi, hop⟩ := List.mem_map.mp hplain
    have hop' : opField w = i.op := (BitVec.eq_of_toNat_eq hop).symm
    exact .inl ⟨i, hi, hop', decode_of_plainOp hi hop'⟩
  by_cases hcpush : opField w = 0x11#8
  · exact .inr (.inl ⟨hcpush, decode_of_cpushOp hcpush⟩)
  by_cases hqrsv : opField w = 0x20#8
  · exact .inr (.inr (.inl ⟨hqrsv, decode_of_qrsvOp hqrsv⟩))
  exact .inr (.inr (.inr ⟨hplain, hcpush, hqrsv, decode_of_undefinedOp hplain
    (fun h => hcpush (BitVec.eq_of_toNat_eq h)) (fun h => hqrsv (BitVec.eq_of_toNat_eq h))⟩))

/-! ## Encoding what was decoded -/

theorem operandBits_of_plain {i : Instr} (hi : i ∈ Machine.plainCommands) : i.operandBits = 0#24 := by
  fin_cases hi <;> rfl

theorem wellFormed_of_plain {i : Instr} (hi : i ∈ Machine.plainCommands) : i.wellFormed = true := by
  fin_cases hi <;> rfl

theorem opField_append_operand (w : Word) : opField w ++ w.extractLsb' 0 24 = w :=
  (BitVec.extractLsb'_append_extractLsb'_eq_extractLsb' (start₁ := 0) (len₁ := 24) rfl).trans BitVec.extractLsb'_eq_self

/-- A word is its op field in front of bits [23:0] (R51). -/
theorem encode_eq_of_fields {w : Word} {i : Instr} (hop : opField w = i.op) (hoperand : w.extractLsb' 0 24 = i.operandBits) :
    encode i = w := by
  rw [encode, ← hop, ← hoperand, opField_append_operand]

/-- Settles O1: the op field selects the row, and the row's format reads the operands back. -/
theorem decodeOfEncodeIsTheInstruction : Obligations.DecodeOfEncodeIsTheInstruction := fun _ h => decode_encode h

/-- Settles O2: format by format, the op field and the operand fields are all the bits that can be set. -/
theorem encodeOfDecodeIsTheWord : Obligations.EncodeOfDecodeIsTheWord := by
  intro w i h
  rcases decode_cases w with ⟨j, hj, hop, hdec⟩ | ⟨hop, hdec⟩ | ⟨hop, hdec⟩ | ⟨-, -, -, hdec⟩
  · obtain ⟨hzero, rfl⟩ := (decodeZ_ok_iff w j i).mp (hdec ▸ h)
    refine ⟨encode_eq_of_fields hop ?_, wellFormed_of_plain hj⟩
    rw [operandBits_of_plain hj, field_eq_iff]
    omega
  · rw [hdec, decodeC, Except.ok.injEq] at h
    subst h
    exact ⟨encode_eq_of_fields hop rfl, rfl⟩
  · obtain ⟨hhigh, hlow, rfl⟩ := (decodeQ_ok_iff w i).mp (hdec ▸ h)
    have hopNat : w.toNat / 16777216 = 0x20 := by rw [← opField_toNat, hop]; rfl
    constructor
    · apply word_ext
      rw [Laws.WordNumber.qrsv _ _]
      simp only [Laws.WordNumber.value]
      omega
    · simp only [Instr.wellFormed, Bool.and_eq_true, decide_eq_true_eq]
      omega
  · cases hdec ▸ h

/-! ## The match/mask table -/

/-- The bits of [23:0] that a command's format fixes to zero (R51), in the shape of `Instr.operandBits`. -/
def Instr.fixedOperandBits : Instr → BitVec 24
  | .cpush _ => 0#24
  | .qrsv _ _ => BitVec.allOnes 11 ++ (0#5 ++ (BitVec.allOnes 3 ++ 0#5))
  | .nop | .clr | .pstruct | .pformat | .encode | .ecccat | .place | .mask | .gen
  | .cstart | .cnull => BitVec.allOnes 24

/-- The row that a command's op and format make, as R59 tabulates it. -/
def Instr.matchRow (i : Instr) : MatchRow := ⟨i.mnemonic, i.op ++ 0#24, BitVec.allOnes 8 ++ i.fixedOperandBits⟩

/-- The command with its operands, if any, at zero: one term for each row. -/
def Instr.form : Instr → Instr
  | .cpush _ => .cpush 0#24
  | .qrsv _ _ => .qrsv 0 0
  | i => i

/-- The thirteen commands in the order of R59. -/
def forms : List Instr :=
  [.nop, .clr, .pstruct, .pformat, .encode, .ecccat, .place, .mask, .gen, .cstart, .cpush 0#24, .cnull, .qrsv 0 0]

theorem form_mem_forms (i : Instr) : i.form ∈ forms := by
  cases i <;> simp [Instr.form, forms]

theorem form_mnemonic (i : Instr) : i.form.mnemonic = i.mnemonic := by cases i <;> rfl

theorem form_matchRow (i : Instr) : i.form.matchRow = i.matchRow := by cases i <;> rfl

theorem matchTable_eq : matchTable = forms.map Instr.matchRow := by decide

theorem matchRow_mem_matchTable (i : Instr) : i.matchRow ∈ matchTable := by
  rw [matchTable_eq, ← form_matchRow]
  exact List.mem_map_of_mem (form_mem_forms i)

theorem exists_of_mem_matchTable {row : MatchRow} (h : row ∈ matchTable) : ∃ i : Instr, i.matchRow = row := by
  rw [matchTable_eq] at h
  obtain ⟨i, -, hrow⟩ := List.mem_map.mp h
  exact ⟨i, hrow⟩

/-- No two rows have the same mnemonic. -/
theorem matchRow_of_mnemonic {i j : Instr} (h : i.mnemonic = j.mnemonic) : i.matchRow = j.matchRow := by
  have hforms : ∀ f ∈ forms, ∀ f' ∈ forms, f.mnemonic = f'.mnemonic → f.matchRow = f'.matchRow := by decide
  rw [← form_matchRow i, ← form_matchRow j]
  exact hforms _ (form_mem_forms i) _ (form_mem_forms j) (by rw [form_mnemonic, form_mnemonic, h])

/-- A word meets a command's row exactly when it has the command's op and the bits its format fixes are zero. -/
theorem meets_matchRow_iff (w : Word) (i : Instr) :
    w &&& i.matchRow.mask = i.matchRow.wanted ↔ opField w = i.op ∧ w.extractLsb' 0 24 &&& i.fixedOperandBits = 0#24 := by
  have hand : w &&& i.matchRow.mask = opField w ++ (w.extractLsb' 0 24 &&& i.fixedOperandBits) := by
    conv_lhs => rw [← opField_append_operand w]
    rw [Instr.matchRow, BitVec.and_append, BitVec.and_allOnes]
  rw [hand]
  constructor
  · intro h
    have hop := congrArg (BitVec.extractLsb' 24 8) h
    have hoperand := congrArg (BitVec.extractLsb' 0 24) h
    rw [Instr.matchRow, BitVec.extractLsb'_append_eq_left, BitVec.extractLsb'_append_eq_left] at hop
    rw [Instr.matchRow, BitVec.extractLsb'_append_eq_right, BitVec.extractLsb'_append_eq_right] at hoperand
    exact ⟨hop, hoperand⟩
  · rintro ⟨hop, hoperand⟩
    rw [hop, hoperand, Instr.matchRow]

theorem operandBits_and_fixedOperandBits (i : Instr) : i.operandBits &&& i.fixedOperandBits = 0#24 := by
  cases i
  case cpush cp => exact BitVec.and_zero
  case qrsv r c =>
    rw [Instr.operandBits, Instr.fixedOperandBits, BitVec.and_append, BitVec.and_append, BitVec.and_append]
    simp only [BitVec.and_zero, BitVec.zero_and]
    rfl
  all_goals exact BitVec.zero_and

/-- A word meets the row of the command it decodes to. -/
theorem meets_matchRow_of_decode {w : Word} {i : Instr} (h : decode w = .ok i) :
    w &&& i.matchRow.mask = i.matchRow.wanted := by
  obtain ⟨rfl, -⟩ := encodeOfDecodeIsTheWord w i h
  rw [meets_matchRow_iff, operandField_encode]
  exact ⟨opField_encode i, operandBits_and_fixedOperandBits i⟩

/-- A field inside [23:0] whose bits are all fixed is zero when the fixed bits are. -/
theorem field_eq_zero_of_fixed {w : Word} {m : BitVec 24} {s l : Nat} (hm : m.extractLsb' s l = BitVec.allOnes l)
    (hin : s + l ≤ 24) (h : w.extractLsb' 0 24 &&& m = 0#24) : w.extractLsb' s l = 0#l := by
  have hfield := congrArg (BitVec.extractLsb' s l) h
  rw [BitVec.extractLsb'_and, hm, BitVec.and_allOnes, BitVec.extractLsb'_extractLsb'_of_le hin] at hfield
  exact hfield.trans BitVec.extractLsb'_zero

/-- R59's mask of QRSV below the op. -/
theorem fixedOperandBits_qrsv (r c : Nat) : (Instr.qrsv r c).fixedOperandBits = 0xFFE0E0#24 := by
  rw [Instr.fixedOperandBits]
  rfl

/-- A word that meets a command's row decodes to that command, with some operands. -/
theorem decode_of_meets_matchRow {w : Word} {i : Instr} (h : w &&& i.matchRow.mask = i.matchRow.wanted) :
    ∃ j, decode w = .ok j ∧ j.mnemonic = i.mnemonic := by
  obtain ⟨hop, hfixed⟩ := (meets_matchRow_iff w i).mp h
  cases i
  case cpush cp => exact ⟨_, decode_of_cpushOp hop, rfl⟩
  case qrsv r c =>
    rw [fixedOperandBits_qrsv] at hfixed
    have hhigh : w.extractLsb' 13 11 = 0#11 := field_eq_zero_of_fixed (by decide) (by decide) hfixed
    have hlow : w.extractLsb' 5 3 = 0#3 := field_eq_zero_of_fixed (by decide) (by decide) hfixed
    exact ⟨_, (decode_of_qrsvOp hop).trans (if_pos ⟨hhigh, hlow⟩), rfl⟩
  all_goals
    exact ⟨_, (decode_of_plainOp (by decide) hop).trans (if_pos (BitVec.and_allOnes.symm.trans hfixed)), rfl⟩

/-- Settles O3: each row is a command's, and a word meets it exactly when it decodes to that command. -/
theorem decoderIsTheMatchTable : Obligations.DecoderIsTheMatchTable := by
  intro w
  refine ⟨fun row hrow => ?_, fun row hrow row' hrow' h h' => ?_, fun hnone => ?_⟩
  · obtain ⟨i, rfl⟩ := exists_of_mem_matchTable hrow
    refine ⟨decode_of_meets_matchRow, ?_⟩
    rintro ⟨j, hdec, hname⟩
    rw [← matchRow_of_mnemonic (hname : j.mnemonic = i.mnemonic)]
    exact meets_matchRow_of_decode hdec
  · obtain ⟨i, rfl⟩ := exists_of_mem_matchTable hrow
    obtain ⟨i', rfl⟩ := exists_of_mem_matchTable hrow'
    obtain ⟨j, hdec, hname⟩ := decode_of_meets_matchRow h
    obtain ⟨j', hdec', hname'⟩ := decode_of_meets_matchRow h'
    obtain rfl : j = j' := Except.ok.inj (hdec.symm.trans hdec')
    exact matchRow_of_mnemonic (hname.symm.trans hname')
  · cases hdec : decode w with
    | error e => exact ⟨e, rfl⟩
    | ok i => exact absurd (meets_matchRow_of_decode hdec) (hnone _ (matchRow_mem_matchTable i))

/-! ## Illegal words -/

theorem decodeZ_error_iff (w : Word) (i : Instr) : (∃ e, decodeZ w i = .error e) ↔ w.extractLsb' 0 24 ≠ 0#24 := by
  unfold decodeZ
  split <;> simp [*]

theorem decodeQ_error_iff (w : Word) :
    (∃ e, decodeQ w = .error e) ↔ w.extractLsb' 13 11 ≠ 0#11 ∨ w.extractLsb' 5 3 ≠ 0#3 := by
  rw [← not_and_or]
  unfold decodeQ
  split <;> simp [*]

/-- R54, by the kind of the op value. -/
theorem decode_error_iff (w : Word) :
    (∃ e, decode w = .error e) ↔
      ((opField w).toNat ∉ plainOps ∧ opField w ≠ 0x11#8 ∧ opField w ≠ 0x20#8) ∨
      ((opField w).toNat ∈ plainOps ∧ w.extractLsb' 0 24 ≠ 0#24) ∨
      (opField w = 0x20#8 ∧ (w.extractLsb' 13 11 ≠ 0#11 ∨ w.extractLsb' 5 3 ≠ 0#3)) := by
  rcases decode_cases w with ⟨j, hj, hop, hdec⟩ | ⟨hop, hdec⟩ | ⟨hop, hdec⟩ | ⟨hplain, hcpush, hqrsv, hdec⟩
  · have hplain : (opField w).toNat ∈ plainOps := hop ▸ List.mem_map_of_mem hj
    have hqrsv : opField w ≠ 0x20#8 := fun h => absurd (h ▸ hplain) (by decide)
    rw [hdec, decodeZ_error_iff]
    simp [hplain, hqrsv]
  · rw [hdec, decodeC, hop]
    simp [plainOps_eq]
  · rw [hdec, decodeQ_error_iff, hop]
    simp [plainOps_eq]
  · simp [hdec, hplain, hcpush, hqrsv]

theorem mem_definedOps_iff (op : BitVec 8) :
    op.toNat ∈ [0x00, 0x01, 0x02, 0x03, 0x04, 0x05, 0x06, 0x07, 0x08, 0x10, 0x11, 0x12, 0x20] ↔
      op.toNat ∈ plainOps ∨ op = 0x11#8 ∨ op = 0x20#8 := by
  rw [← BitVec.toNat_inj, ← BitVec.toNat_inj]
  simp only [plainOps_eq, BitVec.toNat_ofNat, List.mem_cons, List.not_mem_nil, or_false]
  omega

/-- Settles O4: R54 by the kind of the op value, and the port's answer to a word that does not decode. -/
theorem illegalWordsByEncoding : Obligations.IllegalWordsByEncoding := by
  intro w s
  have hqrsv : (opField w).toNat = 0x20 ↔ opField w = 0x20#8 := BitVec.toNat_inj (y := 0x20#8)
  refine ⟨?_, fun ⟨e, he⟩ => Machine.runWord_of_error s he⟩
  rw [← opField, ← plainOps_eq, mem_definedOps_iff, not_or, not_or, hqrsv]
  exact decode_error_iff w

end Sys2Proof

namespace Sys2Proof

/-! ## Operand fields -/

theorem encode_eq_ofNat (i : Instr) : encode i = BitVec.ofNat 32 (Laws.WordNumber.value i) := by
  rw [← Laws.WordNumber.all i, BitVec.ofNat_toNat, BitVec.setWidth_eq]

theorem decode_cpush_word (cp : BitVec 24) : decode (BitVec.ofNat 32 (0x11000000 + cp.toNat)) = .ok (.cpush cp) :=
  encode_eq_ofNat (.cpush cp) ▸ decode_encode rfl

theorem decode_qrsv_word {r c : Nat} (hr : r < 32) (hc : c < 32) :
    decode (BitVec.ofNat 32 (0x20000000 + 256 * r + c)) = .ok (.qrsv r c) := by
  have hword := encode_eq_ofNat (.qrsv r c)
  rw [Laws.WordNumber.value, Nat.mod_eq_of_lt hr, Nat.mod_eq_of_lt hc] at hword
  rw [← hword]
  exact decode_encode (by simp [Instr.wellFormed, hr, hc])

end Sys2Proof

namespace Sys2Proof.Machine

theorem lowByte_eq_ofNat (cp : BitVec 24) : lowByte cp = BitVec.ofNat 8 (cp.toNat % 256) := by
  apply BitVec.eq_of_toNat_eq
  simp [lowByte]

/-- CPUSH reads its operand's low byte only (R53, R95). -/
theorem exec_cpush_congr {cp cp' : BitVec 24} (h : lowByte cp = lowByte cp') (s : State) :
    exec (.cpush cp) s = exec (.cpush cp') s := by
  simp only [exec_eq_bodyOf, bodyOf, cpushRun, h]

theorem exec_qrsv_off {r c : Nat} (s : State) (h : 20 < r ∨ 20 < c) :
    exec (.qrsv r c) s = .next { s with err := { s.err with ill := true } } := by
  rw [exec_eq_bodyOf, bodyOf, qrsvRun_off s h, outcome_raised, raise_illegalCommand]

theorem exec_qrsv_on {r c : Nat} (s : State) (hr : r ≤ 20) (hc : c ≤ 20) :
    exec (.qrsv r c) s = .next { s with res := reservedCell r c } := by
  rw [exec_eq_bodyOf, bodyOf, qrsvRun_on s ⟨hr, hc⟩, outcome_completed, isReserved_eq (by omega) (by omega)]

/-- Settles O5: the words are those of CPUSH and QRSV, and execution reads the operands as R53 says. -/
theorem operandFieldsAndTheirUse : Obligations.OperandFieldsAndTheirUse := by
  refine ⟨decode_cpush_word, fun cp cp' s h => ?_, fun r c => decode_qrsv_word, fun r c s hr hc hoff => ?_⟩
  · exact exec_cpush_congr (by rw [lowByte_eq_ofNat, lowByte_eq_ofNat, h]) s
  · rw [runWord_of_ok s (decode_qrsv_word hr hc), exec_qrsv_off s hoff]

/-- Settles O41: QRSV's predicate is R70's table on the grid, and off it QRSV only raises. -/
theorem qrsvAnswersTheReservedMap : Obligations.QrsvAnswersTheReservedMap := fun _ _ s =>
  ⟨decode_qrsv_word, fun hr hc => isReserved_eq (by omega) (by omega), exec_qrsv_on s, exec_qrsv_off s⟩

/-! ## CSTR -/

/-- The byte the content buffer holds for the i-th character of a text: its low byte, or 0 past the end (R13, R95). -/
def textByte (text : List (BitVec 24)) (i : Nat) : Byte := (text[i]?.map lowByte).getD 0#8

/-- CLEN and CBUF hold a text: its length, saturating at 18, and the bytes of its first 17 characters (R13, R14). -/
def HoldsText (text : List (BitVec 24)) (s : State) : Prop :=
  s.clen.val = min text.length 18 ∧ ∀ i, i < 17 → contentByte s.cbuf i = textByte text i

theorem textByte_append_single (text : List (BitVec 24)) (cp : BitVec 24) (i : Nat) :
    textByte (text ++ [cp]) i = if i = text.length then lowByte cp else textByte text i := by
  rw [textByte, List.getElem?_append]
  split
  case isTrue hin => rw [if_neg (by omega), textByte]
  case isFalse hout =>
    by_cases hi : i = text.length
    · simp [hi]
    · have hpast : text[i]? = none := List.getElem?_eq_none (by omega)
      have hlast : [cp][i - text.length]? = none := List.getElem?_eq_none (by simp; omega)
      rw [if_neg hi, textByte, hpast, hlast]

theorem contentByte_set_same (cbuf : Vector Byte 17) {k : Nat} (hk : k < 17) (b : Byte) :
    contentByte (cbuf.set k b hk) k = b := by
  simp [contentByte, hk]

/-- CPUSH makes the text one character longer (R95). -/
theorem exec_cpush_holdsText {text : List (BitVec 24)} {s : State} (hv : s.cvalid = true) (h : HoldsText text s)
    (cp : BitVec 24) :
    ∃ cbuf clen, exec (.cpush cp) s = .next { s with cbuf := cbuf, clen := clen } ∧
      HoldsText (text ++ [cp]) { s with cbuf := cbuf, clen := clen } := by
  obtain ⟨hlen, hbytes⟩ := h
  rw [exec_eq_bodyOf, bodyOf, cpushRun, if_pos hv]
  split
  case isTrue hroom =>
    refine ⟨_, _, rfl, ?_, fun i hi => ?_⟩
    · simp only [List.length_append, List.length_singleton]
      omega
    · rw [textByte_append_single]
      by_cases hi' : i = text.length
      · obtain rfl : i = s.clen.val := by omega
        rw [if_pos hi']
        exact contentByte_set_same _ (by omega) _
      · rw [if_neg hi', ← hbytes i hi]
        exact contentByte_set_other _ (by omega) _ (by omega)
  case isFalse hfull =>
    refine ⟨s.cbuf, 18, rfl, ?_, fun i hi => ?_⟩
    · simp only [List.length_append, List.length_singleton]
      show 18 = _
      omega
    · rw [textByte_append_single, if_neg (by omega)]
      exact hbytes i hi

theorem runAll_cons_of_next {i : Instr} {s t : State} (h : exec i s = .next t) (is : List Instr) :
    runAll (i :: is) s = runAll is t := by
  rw [runAll, h]

/-- Pushing the characters of `rest` after those of `text`. -/
theorem runAll_cpush_holdsText (rest : List (BitVec 24)) {text : List (BitVec 24)} {s : State} (hv : s.cvalid = true)
    (h : HoldsText text s) :
    ∃ cbuf clen, runAll (rest.map .cpush) s = .next { s with cbuf := cbuf, clen := clen } ∧
      HoldsText (text ++ rest) { s with cbuf := cbuf, clen := clen } := by
  induction rest generalizing text s with
  | nil => exact ⟨s.cbuf, s.clen, rfl, by rwa [List.append_nil]⟩
  | cons cp rest ih =>
    obtain ⟨cbuf, clen, hexec, hpushed⟩ := exec_cpush_holdsText hv h cp
    obtain ⟨cbuf', clen', hrun, hall⟩ := ih (s := { s with cbuf := cbuf, clen := clen }) hv hpushed
    rw [List.append_assoc] at hall
    exact ⟨cbuf', clen', (runAll_cons_of_next hexec _).trans hrun, hall⟩

theorem holdsText_nil {s : State} (hlen : s.clen = 0) (hbuf : s.cbuf = zeroContent) : HoldsText [] s := by
  refine ⟨by rw [hlen]; rfl, fun i _ => ?_⟩
  rw [hbuf, contentByte_zeroContent]
  rfl

/-- Settles O33: CSTART empties the content, and by induction over the text each CPUSH appends its character. -/
theorem cstrHandsOverAText : Obligations.CstrHandsOverAText := by
  intro text s
  obtain ⟨cbuf, clen, hrun, hlen, hbytes⟩ := runAll_cpush_holdsText text
    (s := { s with cvalid := true, clen := 0, cbuf := zeroContent }) rfl (holdsText_nil rfl rfl)
  refine ⟨cbuf, clen, hrun, hlen, fun i hi => (hbytes i hi).trans ?_⟩
  rw [List.nil_append, textByte]
  cases text[i]? with
  | none => rfl
  | some cp => exact lowByte_eq_ofNat cp

/-! ## STEPALL -/

theorem exec_of_completed {i : Instr} {s t : State} (h : bodyOf i s = .completed t) : exec i s = .next t := by
  rw [exec_eq_bodyOf, h, outcome_completed]

theorem exec_of_raised {i : Instr} {s t : State} (h : bodyOf i s = .raised t) : exec i s = .next t := by
  rw [exec_eq_bodyOf, h, outcome_raised]

theorem runAll_cons_of_completed (i : Instr) {s t : State} (h : bodyOf i s = .completed t) (is : List Instr) :
    runAll (i :: is) s = runAll is t :=
  runAll_cons_of_next (exec_of_completed h) is

/-- A misused command in front of a sequence only sets ERR[2] (R131, R134). -/
theorem runAll_cons_of_misused {i : Instr} {s : State} (h : misused i s = true) (is : List Instr) :
    runAll (i :: is) s = runAll is { s with err := { s.err with ill := true } } :=
  runAll_cons_of_next (exec_of_raised (bodyOf_misused h)) is

/-- STEPALL's first three commands always succeed and leave the state that GEN hands to its ENCODE part (R124). -/
theorem runAll_stepAll (s : State) :
    runAll stepAll s = runAll [.encode, .ecccat, .place, .mask] (genBeforeEncode config s) := by
  rw [stepAll, runAll_cons_of_completed .clr rfl, runAll_cons_of_completed .pstruct (pstructRun_of_stg rfl),
    runAll_cons_of_completed .pformat (pformatRun_of_stg config rfl), genBeforeEncode]

/-- Pieces that run to their end did so one after the other. -/
theorem andThen_eq_completed {x : Run} {f : State → Run} {t : State} (h : x.andThen f = .completed t) :
    ∃ u, x = .completed u ∧ f u = .completed t := by
  cases x with
  | completed u => exact ⟨u, rfl, h⟩
  | raised u => cases h
  | stopped e => cases h

/-- Where GEN's bodies all complete, so do STEPALL's commands, through the same states. -/
theorem runAll_stepAll_of_genRun_completed {s t : State} (h : genRun config s = .completed t) :
    runAll stepAll s = .next t := by
  rw [genRun_eq] at h
  obtain ⟨placed, hplaced, hmask⟩ := andThen_eq_completed h
  obtain ⟨joined, hjoined, hplace⟩ := andThen_eq_completed hplaced
  obtain ⟨encoded, hencode, hecccat⟩ := andThen_eq_completed hjoined
  rw [runAll_stepAll, runAll_cons_of_completed .encode hencode, runAll_cons_of_completed .ecccat hecccat,
    runAll_cons_of_completed .place hplace, runAll_cons_of_completed .mask hmask, runAll]

/-- ENCODE at its own stage aborts on a content that does not fit (R98, R132, R133, R135). -/
theorem encodeRun_raised_of_not_fits {s : State} (hstg : s.stg = .format) (h : contentFits s = false) :
    ∃ t, encodeRun s = .raised t ∧ t.stg = .empty := by
  cases hv : s.cvalid with
  | false => exact ⟨_, encodeRun_null hstg hv, rfl⟩
  | true =>
    have hl : ¬s.clen.val ≤ 17 := by simpa [contentFits, hv] using h
    exact ⟨_, encodeRun_over hstg hv (by omega), rfl⟩

theorem contentFits_genBeforeEncode (cfg : Config) (s : State) : contentFits (genBeforeEncode cfg s) = contentFits s := by
  simp [contentFits]

/-- After an aborted ENCODE the commands left of STEPALL come out of order; the second and third raise add nothing. -/
theorem runAll_after_abort {s : State} (h : s.stg = .empty) :
    runAll [.ecccat, .place, .mask] s = .next { s with err := { s.err with ill := true } } := by
  rw [runAll_cons_of_misused (by simp [misused, h]), runAll_cons_of_misused (by simp [misused, h]),
    runAll_cons_of_misused (by simp [misused, h]), runAll]

theorem exec_gen_of_encode_raised {s t : State} (h : encodeRun (genBeforeEncode config s) = .raised t) :
    exec .gen s = .next t := by
  apply exec_of_raised
  rw [bodyOf, genRun_eq, h, andThen_raised, andThen_raised, andThen_raised]

theorem runAll_stepAll_of_encode_raised {s t : State} (h : encodeRun (genBeforeEncode config s) = .raised t)
    (hempty : t.stg = .empty) : runAll stepAll s = .next { t with err := { t.err with ill := true } } := by
  rw [runAll_stepAll, runAll_cons_of_next (exec_of_raised (i := .encode) h), runAll_after_abort hempty]

/-- Settles O44: STEPALL runs GEN's bodies; where ENCODE aborts, GEN ends and STEPALL's last three commands raise. -/
theorem genEqualsStepAll : Obligations.GenEqualsStepAll := by
  refine fun s => ⟨fun hfits => ?_, fun hfits => ?_⟩
  · obtain ⟨hv, hl⟩ : s.cvalid = true ∧ s.clen.val ≤ 17 := by simpa [contentFits] using hfits
    have hgen := genRun_fits config hv hl
    exact ⟨_, runAll_stepAll_of_genRun_completed hgen, exec_of_completed (i := .gen) hgen⟩
  · obtain ⟨t, hencode, hempty⟩ := encodeRun_raised_of_not_fits (s := genBeforeEncode config s) (by simp)
      ((contentFits_genBeforeEncode config s).trans hfits)
    exact ⟨t, exec_gen_of_encode_raised hencode, runAll_stepAll_of_encode_raised hencode hempty⟩

/-! ## Fixed words and texts -/

/-- Settles O6: twenty closed words. -/
theorem sampleWordsDecode : Obligations.SampleWordsDecode := by
  unfold Obligations.SampleWordsDecode
  decide

/-- Settles O16: closed texts. -/
theorem assemblerForms : Obligations.AssemblerForms := by
  unfold Obligations.AssemblerForms
  decide +kernel

end Sys2Proof.Machine
end

section
/-! PROOFS of the family 40_classifier: the counts of reserved and free cells (R71), the cells MASK inverts, and
MASK as its own inverse (R119). -/

namespace Sys2Proof.Machine

/-! ## Counts of cells -/

theorem length_allCells : allCells.length = 441 := by decide +kernel

theorem length_free : (allCells.filter fun rc => !isReserved rc.1 rc.2).length = 224 := by decide +kernel

/-- The free cells MASK inverts (R71(c), R118). -/
theorem length_free_maskBit :
    (allCells.filter fun rc => !isReserved rc.1 rc.2 && maskBit rc.1 rc.2).length = 112 := by decide +kernel

/-- The cells that are not free are the reserved ones (R71(a)). -/
theorem length_reserved : (allCells.filter fun rc => isReserved rc.1 rc.2).length = 217 := by
  have hsplit := List.length_eq_length_filter_add (l := allCells) fun rc => isReserved rc.1 rc.2
  rw [length_allCells, length_free] at hsplit
  omega

theorem odd_eq_not_maskBit (r c : Nat) : ((r + c) % 2 == 1) = !maskBit r c := by
  rw [maskBit]
  rcases Nat.mod_two_eq_zero_or_one (r + c) with h | h <;> rw [h] <;> rfl

/-- The free cells that are not on the even parity are on the odd one (R71(c)). -/
theorem length_free_odd :
    (allCells.filter fun rc => !isReserved rc.1 rc.2 && (rc.1 + rc.2) % 2 == 1).length = 112 := by
  have hsplit := List.length_eq_length_filter_add (l := allCells.filter fun rc => !isReserved rc.1 rc.2)
    fun rc => maskBit rc.1 rc.2
  simp only [List.filter_filter, Bool.and_comm (maskBit _ _), Bool.and_comm (!maskBit _ _)] at hsplit
  rw [length_free, length_free_maskBit] at hsplit
  simp only [odd_eq_not_maskBit]
  omega

/-- R71(b), column by column. -/
theorem length_free_by_column :
    ((List.range 21).map fun c => ((List.range 21).filter fun r => !isReserved r c).length) =
      [4, 4, 4, 4, 4, 4, 0, 4, 12, 20, 20, 20, 20, 13, 13, 13, 13, 13, 13, 13, 13] := by decide +kernel

/-- Settles O42: the free cells are counted, whole, by column and on the even parity; the other counts are the rest. -/
theorem reservedCellCounts : Obligations.ReservedCellCounts :=
  ⟨length_reserved, length_free, length_free_by_column, length_free_maskBit, length_free_odd⟩

/-! ## The cells MASK inverts -/

/-- MASK changes a cell exactly when it is free and its mask bit is 1 (R118). -/
theorem get_bne_get_maskGrid (g : Grid) {r c : Nat} (hr : r < 21) (hc : c < 21) :
    (g.get r c != (maskGrid g).get r c) = (!isReserved r c && maskBit r c) := by
  rw [get_maskGrid g hr hc]
  cases isReserved r c <;> simp

theorem length_changed_maskGrid (g : Grid) :
    (allCells.filter fun rc => g.get rc.1 rc.2 != (maskGrid g).get rc.1 rc.2).length = 112 := by
  have hcells : ∀ rc ∈ allCells, (g.get rc.1 rc.2 != (maskGrid g).get rc.1 rc.2) =
      (!isReserved rc.1 rc.2 && maskBit rc.1 rc.2) := fun rc hmem =>
    get_bne_get_maskGrid g (mem_allCells.mp hmem).1 (mem_allCells.mp hmem).2
  rw [List.filter_congr hcells, length_free_maskBit]

/-- MASK twice is no MASK (R119): a cell is left alone twice, or meets the same mask bit twice. -/
theorem maskGrid_maskGrid (g : Grid) : maskGrid (maskGrid g) = g := by
  refine Grid.ext_get fun r c hr hc => ?_
  rw [get_maskGrid _ hr hc, get_maskGrid _ hr hc]
  cases isReserved r c <;> simp

/-- The grid of a state that MASK ends in (R118). -/
theorem grid_of_exec_mask {s t : State} (hstg : s.stg = .placed) (hexec : exec .mask s = .next t) :
    t.g = maskGrid s.g := by
  rw [exec_of_completed (i := .mask) (maskRun_of_stg hstg)] at hexec
  rw [← next_inj hexec]

/-- Settles O40: the cells that differ are the free ones of mask bit 1, and those are counted. -/
theorem maskInvertsOneHundredAndTwelveCells : Obligations.MaskInvertsOneHundredAndTwelveCells := by
  refine ⟨fun s t hstg hexec => ?_, maskGrid_maskGrid⟩
  rw [grid_of_exec_mask hstg hexec]
  exact length_changed_maskGrid s.g

end Sys2Proof.Machine
end

section
/-! PROOFS of the family 41_structural: CLR's fresh grid (R75), and the value PSTRUCT gives each class of cells
(R76 to R80). -/

namespace Sys2Proof.Machine

/-! ## CLR -/

/-- Settles O27: CLR's body completes from every state, with the fresh grid and stream of R75. -/
theorem clrAllocatesAFreshGrid : Obligations.ClrAllocatesAFreshGrid :=
  ⟨decode_encode (i := .clr) rfl, fun s => exec_of_completed (i := .clr) (s := s) rfl⟩

/-! ## The value PSTRUCT writes, class by class -/

theorem finder_eq_decide (i j : Nat) :
    finder i j = decide (i = 0 ∨ i = 6 ∨ j = 0 ∨ j = 6 ∨ (2 ≤ i ∧ i ≤ 4 ∧ 2 ≤ j ∧ j ≤ 4)) := by
  rw [Bool.eq_iff_iff, finder]
  simp only [Bool.or_eq_true, Bool.and_eq_true, beq_iff_eq, decide_eq_true_eq]
  tauto

/-- The square at each anchor holds the finder template (R76). -/
theorem structValue_of_anchor {r0 c0 i j : Nat} (hanchor : (r0, c0) ∈ [(0, 0), (0, 14), (14, 0)]) (hi : i < 7)
    (hj : j < 7) : structValue (r0 + i) (c0 + j) = some (finder i j) := by
  have hsquares : ∀ a ∈ [(0, 0), (0, 14), (14, 0)], ∀ i < 7, ∀ j < 7,
      structValue (a.1 + i) (a.2 + j) = some (finder i j) := by decide
  exact hsquares (r0, c0) hanchor i hi j hj

theorem anchor_le {r0 c0 : Nat} (hanchor : (r0, c0) ∈ [(0, 0), (0, 14), (14, 0)]) : r0 ≤ 14 ∧ c0 ≤ 14 := by
  have hle : ∀ a ∈ [(0, 0), (0, 14), (14, 0)], a.1 ≤ 14 ∧ a.2 ≤ 14 := by decide
  exact hle (r0, c0) hanchor

/-- The strips around the finders are no part of them (R65, R66). -/
theorem isFinder_of_isSeparator {r c : Nat} (h : isSeparator r c = true) : isFinder r c = false := by
  simp only [isSeparator, Bool.or_eq_true, Bool.and_eq_true, beq_iff_eq, decide_eq_true_eq] at h
  simp only [isFinder, Bool.or_eq_false_iff, Bool.and_eq_false_iff, decide_eq_false_iff_not]
  omega

/-- A separator cell is forced light (R77). -/
theorem structValue_of_isSeparator {r c : Nat} (h : isSeparator r c = true) : structValue r c = some false := by
  simp [structValue, isFinder_of_isSeparator h, h]

/-- Row 6 and column 6 alternate from dark at index 8 (R78). -/
theorem structValue_timing : ∀ k, k < 5 →
    structValue 6 (8 + k) = some (decide (k % 2 = 0)) ∧ structValue (8 + k) 6 = some (decide (k % 2 = 0)) := by decide

/-- The dark module (R79). -/
theorem structValue_darkModule : structValue 13 8 = some true := by decide

/-- PSTRUCT writes no cell outside its four classes (R80). -/
theorem structValue_of_no_class {r c : Nat} (hfinder : isFinder r c = false) (hsep : isSeparator r c = false)
    (htiming : isTiming r c = false) (hdark : isDarkModule r c = false) : structValue r c = none := by
  simp [structValue, hfinder, hsep, htiming, hdark]

/-- A cell that PSTRUCT writes holds the written value, whatever the grid held before. -/
theorem get_structWrites_of_some (g : Grid) {r c : Nat} {b : Bool} (hr : r < 21) (hc : c < 21)
    (h : structValue r c = some b) : (g.writeAll structWrites).get r c = b := by
  rw [get_structWrites g hr hc, h, Option.getD_some]

/-! ## PSTRUCT -/

/-- PSTRUCT at another stage than STG 1 only sets ERR[2] (R80, R134). -/
theorem exec_pstruct_of_ne {s : State} (h : s.stg ≠ .alloc) :
    exec .pstruct s = .next { s with err := { s.err with ill := true } } :=
  exec_of_raised (bodyOf_misused (i := .pstruct) (bne_iff_ne.mpr h))

/-- Settles O28: a cell after PSTRUCT's writes is its class's value, and outside the classes what it was. -/
theorem pstructWritesTheStructure : Obligations.PstructWritesTheStructure := by
  refine ⟨decode_encode (i := .pstruct) rfl, fun s => exec_pstruct_of_ne, fun s hstg =>
    ⟨s.g.writeAll structWrites, exec_of_completed (i := .pstruct) (pstructRun_of_stg hstg), ?finders, ?separators,
      ?timing, ?darkModule, ?frame, ?fromLight⟩⟩
  case finders =>
    intro r0 c0 i j hanchor hi hj
    obtain ⟨hr0, hc0⟩ := anchor_le hanchor
    rw [← finder_eq_decide]
    exact get_structWrites_of_some s.g (by omega) (by omega) (structValue_of_anchor hanchor hi hj)
  case separators =>
    exact fun r c hr hc hsep => get_structWrites_of_some s.g hr hc (structValue_of_isSeparator hsep)
  case timing =>
    intro k hk
    obtain ⟨hrow, hcolumn⟩ := structValue_timing k hk
    exact ⟨get_structWrites_of_some s.g (by decide) (by omega) hrow,
      get_structWrites_of_some s.g (by omega) (by decide) hcolumn⟩
  case darkModule => exact get_structWrites_of_some s.g (by decide) (by decide) structValue_darkModule
  case frame =>
    intro r c hr hc hfinder hsep htiming hdark
    rw [get_structWrites s.g hr hc, structValue_of_no_class hfinder hsep htiming hdark, Option.getD_none]
  case fromLight => exact fun hlight r c hr hc => get_structWrites_of_light hlight hr hc

end Sys2Proof.Machine
end

section
/-! PROOFS of the family 42_format: the bits PFORMAT leaves in the format cells (R87, R88), for every format word. -/

namespace Sys2Proof.Machine

/-! ## The format bit a cell holds -/

/-- Outside the format cells FMT_MAP leaves no bit (R87). -/
theorem formatBitAt_of_isFormat_eq_false {r c : Nat} (hr : r < 21) (hc : c < 21) (h : isFormat r c = false) :
    formatBitAt r c = none := by
  rw [← Option.isNone_iff_eq_none, ← Option.not_isSome, formatBitAt_reserved r hr c hc, h, Bool.not_false]

/-- Only bits 14 to 8 of the word survive in the grid (R88(b)). -/
theorem le_of_formatBitAt_eq_some {r c k : Nat} (h : formatBitAt r c = some k) : 8 ≤ k := by
  unfold formatBitAt at h
  split_ifs at h <;> simp only [Option.some.injEq] at h <;> omega

theorem formatBitAt_row {c : Nat} (h : c ≤ 5) : formatBitAt 8 c = some (14 - c) := by
  simp [formatBitAt, h]

theorem formatBitAt_column {r : Nat} (h : 9 ≤ r) (h' : r ≤ 12) : formatBitAt r 8 = some (21 - r) := by
  simp [formatBitAt, h, h', show r ≠ 8 by omega, show r ≠ 7 by omega]

/-! ## The grid after PFORMAT's writes -/

/-- A cell that holds a format bit holds the word's, whatever the grid held before. -/
theorem get_formatWrites_of_some (g : Grid) (w : BitVec 15) {r c k : Nat} (hr : r < 21) (hc : c < 21)
    (h : formatBitAt r c = some k) : (g.writeAll (formatWrites w)).get r c = w.getLsbD k := by
  rw [get_formatWrites g w hr hc, h]

theorem get_formatWrites_of_none (g : Grid) (w : BitVec 15) {r c : Nat} (hr : r < 21) (hc : c < 21)
    (h : formatBitAt r c = none) : (g.writeAll (formatWrites w)).get r c = g.get r c := by
  rw [get_formatWrites g w hr hc, h]

/-- Words that agree on bits 14 to 8 leave the same grid: the writes of lower bits are overwritten (R88(b)). -/
theorem writeAll_formatWrites_congr (g : Grid) {w w' : BitVec 15} (h : ∀ k, 8 ≤ k → w.getLsbD k = w'.getLsbD k) :
    g.writeAll (formatWrites w) = g.writeAll (formatWrites w') := by
  refine Grid.ext_get fun r c hr hc => ?_
  cases hbit : formatBitAt r c with
  | none => rw [get_formatWrites_of_none g w hr hc hbit, get_formatWrites_of_none g w' hr hc hbit]
  | some k =>
    rw [get_formatWrites_of_some g w hr hc hbit, get_formatWrites_of_some g w' hr hc hbit]
    exact h k (le_of_formatBitAt_eq_some hbit)

/-! ## PFORMAT -/

/-- PFORMAT at another stage than STG 2 only sets ERR[2] (R87, R134). -/
theorem exec_pformat_of_ne {s : State} (h : s.stg ≠ .struct) :
    exec .pformat s = .next { s with err := { s.err with ill := true } } :=
  exec_of_raised (bodyOf_misused (i := .pformat) (bne_iff_ne.mpr h))

/-- Settles O29: a format cell holds the bit of the last write to it, and every other cell what it was. -/
theorem pformatWritesTheFormatWord : Obligations.PformatWritesTheFormatWord := by
  refine ⟨decode_encode (i := .pformat) rfl, fun s => exec_pformat_of_ne, fun s hstg => ?_⟩
  have holdsBit : ∀ {r c k : Nat}, r < 21 → c < 21 → formatBitAt r c = some k →
      (s.g.writeAll (formatWrites config.formatWord)).get r c = config.formatWord.getLsbD k :=
    get_formatWrites_of_some s.g config.formatWord
  refine ⟨s.g.writeAll (formatWrites config.formatWord),
    exec_of_completed (i := .pformat) (pformatRun_of_stg config hstg), ?row, ?_, ?_, ?_, ?_, ?column, ?_, ?_, ?frame⟩
  case row => exact fun c hc => holdsBit (by decide) (by omega) (formatBitAt_row hc)
  case column => exact fun r hlow hhigh => holdsBit (by omega) (by decide) (formatBitAt_column hlow hhigh)
  case frame =>
    exact fun r c hr hc hcell =>
      get_formatWrites_of_none s.g config.formatWord hr hc (formatBitAt_of_isFormat_eq_false hr hc hcell)
  all_goals exact holdsBit (by decide) (by decide) rfl

/-- Settles O30: the grid after PFORMAT's writes depends on bits 14 to 8 only; at another stage no bit is read. -/
theorem pformatForAnyFormatWord : Obligations.PformatForAnyFormatWord := by
  refine ⟨fun cfg s hstg => ?cells, fun cfg cfg' s hagree => ?congr⟩
  case cells =>
    exact ⟨_, pformatRun_of_stg cfg hstg, fun r c hr hc => get_formatWrites s.g cfg.formatWord hr hc⟩
  case congr =>
    by_cases hstg : s.stg = .struct
    · rw [pformatRun_of_stg cfg hstg, pformatRun_of_stg cfg' hstg, writeAll_formatWrites_congr s.g hagree]
    · rw [pformatRun, pformatRun, requireStage_of_ne _ hstg, requireStage_of_ne _ hstg]

end Sys2Proof.Machine
end

section
/-! PROOFS of the family 43_encoder: the content commands (R93 to R95), ENCODE's closed form and its two failures
(R98 to R103, R130 to R135), and GEN on an accepted content (R120, R124). -/

namespace Sys2Proof.Machine

/-! ## The content -/

/-- Settles O31: both bodies complete from every state. -/
theorem cstartAndCnullReplaceTheContent : Obligations.CstartAndCnullReplaceTheContent :=
  ⟨decode_encode (i := .cstart) rfl, decode_encode (i := .cnull) rfl, fun s =>
    ⟨exec_of_completed (i := .cstart) (s := s) rfl, exec_of_completed (i := .cnull) (s := s) rfl⟩⟩

theorem contentByte_set (cbuf : Vector Byte 17) {k : Nat} (hk : k < 17) (b : Byte) (i : Nat) :
    contentByte (cbuf.set k b hk) i = if i = k then b else contentByte cbuf i := by
  split
  case isTrue h => exact h ▸ contentByte_set_same cbuf hk b
  case isFalse h => exact contentByte_set_other cbuf hk b h

theorem cpushRun_room (cp : BitVec 24) {s : State} (hv : s.cvalid = true) (hl : s.clen.val ≤ 16) :
    cpushRun cp s =
      .completed { s with cbuf := s.cbuf.set s.clen.val (lowByte cp) (by omega), clen := ⟨s.clen.val + 1, by omega⟩ } := by
  rw [cpushRun, if_pos hv, dif_pos hl]

theorem cpushRun_full (cp : BitVec 24) {s : State} (hv : s.cvalid = true) (hl : 16 < s.clen.val) :
    cpushRun cp s = .completed { s with clen := 18 } := by
  rw [cpushRun, if_pos hv, dif_neg (by omega)]

/-- Settles O32: the three branches of CPUSH's body, and the one byte that the first of them writes. -/
theorem cpushAppendsOneCharacter : Obligations.CpushAppendsOneCharacter := by
  refine fun cp s => ⟨decode_cpush_word cp, fun hv hl => ?room, fun hv hl => ?full, fun hv => ?null⟩
  case room =>
    refine ⟨_, _, exec_of_completed (i := .cpush cp) (cpushRun_room cp hv hl), rfl, fun i _ => ?_⟩
    rw [contentByte_set, lowByte_eq_ofNat]
  case full => exact exec_of_completed (i := .cpush cp) (cpushRun_full cp hv hl)
  case null => exact exec_of_raised (bodyOf_misused (i := .cpush cp) (by simp [misused, hv]))

/-! ## ENCODE -/

/-- Settles O34: from an empty stream ENCODE's six steps are one append of R103's 152 bits. -/
theorem encodeAppendsTheClosedForm : Obligations.EncodeAppendsTheClosedForm := fun s hstg hempty hv hl =>
  ⟨encodedStream s.bs s.clen.val s.cbuf, exec_of_completed (i := .encode) (encodeRun_completed hstg hempty hv hl),
    encodedStream_holdsData s.bs hl s.cbuf, fun _ => encodedStream_rest s.bs hl s.cbuf⟩

/-- Settles O35: the three raises of ENCODE's body; the two of its own stage are the aborts of R132 and R133. -/
theorem encodeFailuresAbort : Obligations.EncodeFailuresAbort :=
  ⟨fun _ hstg => exec_of_raised (bodyOf_misused (i := .encode) (bne_iff_ne.mpr hstg)), fun _ hstg =>
    ⟨fun hv => exec_of_raised (i := .encode) (encodeRun_null hstg hv),
      fun hv hl => exec_of_raised (i := .encode) (encodeRun_over hstg hv hl)⟩⟩

/-! ## The two content exceptions, over all commands -/

/-- A command that sets ERR[0] found a null content and is ENCODE or GEN (R130). -/
theorem Effect.sets_inv {i : Instr} {s t : State} (h : Effect i s t) (hclear : s.err.inv = false)
    (hset : t.err.inv = true) : (i = .encode ∨ i = .gen) ∧ s.cvalid = false := by
  cases h
  case encodeNull hv => exact ⟨.inl rfl, hv⟩
  case genNull hv => exact ⟨.inr rfl, hv⟩
  case clr | gen | genOver => cases hset
  all_goals exact absurd (hclear.symm.trans hset) Bool.false_ne_true

/-- A command that sets ERR[1] found 18 or more characters and is ENCODE or GEN (R98, R130). -/
theorem Effect.sets_cap {i : Instr} {s t : State} (h : Effect i s t) (hclear : s.err.cap = false)
    (hset : t.err.cap = true) : (i = .encode ∨ i = .gen) ∧ s.cvalid = true ∧ s.clen.val = 18 := by
  cases h
  case encodeOver hv hl => exact ⟨.inl rfl, hv, hl⟩
  case genOver hv hl => exact ⟨.inr rfl, hv, hl⟩
  case clr | gen | genNull => cases hset
  all_goals exact absurd (hclear.symm.trans hset) Bool.false_ne_true

/-- Settles O20: of all the ways a command can end, only ENCODE's and GEN's two aborts set these bits. -/
theorem contentExceptionConditions : Obligations.ContentExceptionConditions := fun _ _ _ h =>
  ⟨(effect_of_exec h).sets_inv, (effect_of_exec h).sets_cap⟩

/-! ## GEN -/

/-- Settles O43: GEN completes, and its stream and grid are what ENCODE, ECCCAT, PLACE and MASK make of the content. -/
theorem genBuildsTheFinalGrid : Obligations.GenBuildsTheFinalGrid := fun s hv hl =>
  ⟨genGrid config s.clen.val s.cbuf, genStream config s.clen.val s.cbuf,
    exec_of_completed (i := .gen) (genRun_fits config hv hl), genStream_holdsData config hl s.cbuf,
    holdsEcc_concat config.eccFn (encodedStream zeroStream s.clen.val s.cbuf),
    fun _ _ => get_genGrid_free config s.clen.val s.cbuf,
    fun _ _ hr hc => get_genGrid_reserved config s.clen.val s.cbuf hr hc⟩

end Sys2Proof.Machine
end

section
/-! PROOFS of the family 44_ecc_concat: the combined stream of ECCCAT (R105 to R107), for the placeholder and for every
other stand-in strategy. -/

namespace Sys2Proof.Machine

/-! ## The combined stream -/

/-- The stand-in bits of the running machine are 1,0,1,0,... whatever the data bits are (R105, log 5). -/
theorem config_eccFn_getElem (d : Vector Bool 152) {j : Nat} (h : j < 56) :
    (config.eccFn d)[j] = decide (j % 2 = 0) :=
  Vector.getElem_ofFn h

/-- ECC_FN's argument is the first 152 stream bits and nothing else (R105). -/
theorem dataBits_congr {bs bs' : Vector Bool 208} (h : ∀ i, i < 152 → streamBit bs i = streamBit bs' i) :
    dataBits bs = dataBits bs' :=
  congrArg Vector.ofFn (funext fun i => h i.val i.isLt)

/-- The combined stream is a function of the data bits: the cells from 152 on are read by neither part (R106). -/
theorem concatStream_congr (f : Vector Bool 152 → Vector Bool 56) {bs bs' : Vector Bool 208}
    (h : ∀ i, i < 152 → streamBit bs i = streamBit bs' i) : concatStream f bs = concatStream f bs' := by
  refine streamBit_ext fun i hi => ?_
  by_cases hdata : i < 152
  · rw [streamBit_concat_data f bs hdata, streamBit_concat_data f bs' hdata, h i hdata]
  · obtain ⟨j, rfl⟩ := Nat.exists_eq_add_of_le (Nat.not_lt.mp hdata)
    have hj : j < 56 := by omega
    rw [streamBit_concat_ecc f bs hj, streamBit_concat_ecc f bs' hj, dataBits_congr h]

/-! ## ECCCAT -/

/-- Settles O36: the combined stream with the hardware's strategy, whose stand-in bits alternate. -/
theorem ecccatAppendsThePlaceholder : Obligations.EcccatAppendsThePlaceholder := fun s hstg =>
  ⟨concatStream config.eccFn s.bs, exec_of_completed (i := .ecccat) (ecccatRun_of_stg config hstg),
    fun _ => streamBit_concat_data config.eccFn s.bs,
    fun _ hj => (streamBit_concat_ecc config.eccFn s.bs hj).trans (config_eccFn_getElem (dataBits s.bs) hj)⟩

/-- Settles O37: at STG 4 the body stores the combined stream, which depends on the data bits only; elsewhere its
`require` raises. -/
theorem ecccatForAnyStrategy : Obligations.EcccatForAnyStrategy := by
  refine ⟨⟨decode_encode (i := .ecccat) rfl, exec_eq_bodyOf .ecccat⟩, fun cfg s hstg => ?misuse,
    fun cfg s hstg => ?stream, fun cfg s s' t t' hagree hstg hstg' ht ht' => ?congr⟩
  case misuse => exact requireStage_of_ne _ hstg
  case stream =>
    exact ⟨concatStream cfg.eccFn s.bs, ecccatRun_of_stg cfg hstg, fun _ => streamBit_concat_data cfg.eccFn s.bs,
      holdsEcc_concat cfg.eccFn s.bs⟩
  case congr =>
    rw [ecccatRun_of_stg cfg hstg] at ht
    rw [ecccatRun_of_stg cfg hstg'] at ht'
    cases ht
    cases ht'
    exact concatStream_congr cfg.eccFn hagree

end Sys2Proof.Machine
end

section
/-! PROOFS of the family 45_placement: the free cells after PLACE, in the tabulated order (R112 to R115). -/

namespace Sys2Proof.Machine

/-! ## PLACE_ORDER -/

theorem length_placeTable : placeTable.length = 224 := by decide +kernel

/-- The table inherits this from the traversal, which visits no cell twice (R111). -/
theorem nodup_placeTable : placeTable.Nodup := placeOrder_eq ▸ nodup_placeOrder

/-! ## PLACE -/

/-- PLACE at another stage than STG 5 only sets ERR[2] (R114, R134). -/
theorem exec_place_of_ne {s : State} (h : s.stg ≠ .concat) :
    exec .place s = .next { s with err := { s.err with ill := true } } :=
  exec_of_raised (bodyOf_misused (i := .place) (bne_iff_ne.mpr h))

/-- Settles O38: the fill writes entry i of the tabulated order with stream index i, and no reserved cell. -/
theorem placeFillsTheFreeCells : Obligations.PlaceFillsTheFreeCells := by
  refine ⟨decode_encode (i := .place) rfl, fun s => exec_place_of_ne, fun s hstg => ?_⟩
  refine ⟨placeGrid s.bs s.bslen.val s.g, exec_of_completed (i := .place) (placeRun_of_stg hstg), ?reserved, ?free,
    length_placeTable, nodup_placeTable, ?cover⟩
  case reserved =>
    exact fun r c hr hc hres => get_placeGrid_reserved s.bs s.bslen.val s.g ((isReserved_eq hr hc).trans hres)
  case free => exact fun i rc hi => get_placeGrid_free s.bs s.bslen.val s.g (placeOrder_eq ▸ hi)
  case cover => exact fun r c hr hc => (placeTable_covers hr hc).mp

end Sys2Proof.Machine
end

section
/-! PROOFS of the family 46_masking: every cell after MASK, against the reserved map (R118, R119). -/

namespace Sys2Proof.Machine

theorem maskBit_eq_decide (r c : Nat) : maskBit r c = decide ((r + c) % 2 = 0) := beq_eq_decide _ _

/-- MASK at another stage than STG 6 only sets ERR[2] (R119, R134). -/
theorem exec_mask_of_ne {s : State} (h : s.stg ≠ .placed) :
    exec .mask s = .next { s with err := { s.err with ill := true } } :=
  exec_of_raised (bodyOf_misused (i := .mask) (bne_iff_ne.mpr h))

/-- Settles O39: the loop toggles a cell by its mask bit exactly when the reserved map leaves the cell free. -/
theorem maskTogglesTheFreeCells : Obligations.MaskTogglesTheFreeCells := by
  refine ⟨decode_encode (i := .mask) rfl, fun s => exec_mask_of_ne, fun s hstg => ?_⟩
  refine ⟨maskGrid s.g, exec_of_completed (i := .mask) (maskRun_of_stg hstg), fun r c hr hc => ?_⟩
  rw [get_maskGrid s.g hr hc, isReserved_eq hr hc, maskBit_eq_decide]

end Sys2Proof.Machine
end

section
/-! PROOFS of the family 47_orchestration: STG after every command (R126), NOP (R123), and what GEN's end state shows
and depends on (R124, R127, R158). -/

namespace Sys2Proof.Machine

/-! ## The sequencer -/

/-- A misused command only sets ERR[2] (R131, R134). -/
theorem exec_of_misused {i : Instr} {s : State} (h : misused i s = true) :
    exec i s = .next { s with err := { s.err with ill := true } } :=
  exec_of_raised (bodyOf_misused h)

theorem stageAfter_of_misused {i : Instr} {s : State} (h : misused i s = true) : stageAfter i s = s.stg := if_pos h

theorem stageAfter_gen (s : State) : stageAfter .gen s = if contentFits s then .done else .empty := rfl

theorem contentFits_eq_false_iff (s : State) :
    contentFits s = false ↔ s.cvalid = false ∨ (s.cvalid = true ∧ s.clen.val = 18) := by
  have hlen := s.clen.isLt
  cases hv : s.cvalid
  case false => simp [contentFits, hv]
  case true =>
    rw [contentFits, hv, Bool.true_and, decide_eq_false_iff_not]
    simp only [Bool.true_eq_false, true_and, false_or]
    omega

/-- Every way a command can end leaves STG at the value of R126's table. -/
theorem Effect.stg_eq {i : Instr} {s t : State} (h : Effect i s t) : t.stg = stageAfter i s := by
  cases h
  case illegal h => exact (stageAfter_of_misused h).symm
  case nop | clr | cstart | cnull => rfl
  case pstruct hstg | pformat hstg | ecccat hstg | place hstg | mask hstg => simp [stageAfter, misused, hstg]
  case encode hstg hv hl _ => simp [stageAfter, misused, contentFits, hstg, hv, hl]
  case encodeNull hstg hv => simp [stageAfter, misused, contentFits, hstg, hv]
  case encodeOver hstg _ hl => simp [stageAfter, misused, contentFits, hstg, hl]
  case gen hv hl => simp [stageAfter_gen, contentFits, hv, hl]
  case genNull hv => simp [stageAfter_gen, contentFits, hv]
  case genOver _ hl => simp [stageAfter_gen, contentFits, hl]
  case cpush | cpushFull | qrsv => exact (ite_self _).symm

/-- Settles O23: an illegal word and a misused command only set ERR[2]; every other way to end is a row of the table. -/
theorem stageTransitionTable : Obligations.StageTransitionTable := by
  refine ⟨fun w e s he => ⟨_, runWord_of_error s he, rfl, rfl⟩, fun i s t h => ?_⟩
  refine ⟨(effect_of_exec h).stg_eq, fun hmis => ?_⟩
  rw [exec_of_misused hmis] at h
  rw [← next_inj h]

/-- Settles O26: the zero word is NOP's, and its body completes in the same state. -/
theorem nopChangesNothing : Obligations.NopChangesNothing :=
  ⟨decode_encode (i := .nop) rfl, fun s => exec_of_completed (i := .nop) (s := s) rfl⟩

/-! ## GEN -/

/-- DONE after GEN is the STG of R126's table. -/
theorem Effect.gen_doneFlag {s t : State} (h : Effect .gen s t) : doneFlag t = contentFits s := by
  rw [doneFlag, h.stg_eq, stageAfter_gen]
  cases contentFits s <;> rfl

/-- Settles O46: DONE is read off the table of R126, and ERR[0] and ERR[1] are the two ways not to fit. -/
theorem genSuccessIsShownByDone : Obligations.GenSuccessIsShownByDone := by
  intro s t h
  have heff := effect_of_exec h
  refine ⟨heff.gen_doneFlag, ?_⟩
  rw [heff.gen_doneFlag, heff.gen_err, contentFits_eq_false_iff]
  simp

/-- Settles O45: the two raises of GEN's body, each from an error mask that CLR's part has cleared. -/
theorem genFailuresAbort : Obligations.GenFailuresAbort := fun _ =>
  ⟨fun hv => exec_of_raised (i := .gen) (genRun_null config hv),
    fun hv hl => exec_of_raised (i := .gen) (genRun_over config hv hl)⟩

/-- Settles O47: CLR's part overwrites everything in which the two states can differ. -/
theorem genIgnoresTheEarlierRun : Obligations.GenIgnoresTheEarlierRun := by
  intro s s' hv hlen hbuf hres hpend hans
  have hclr : clrRun s = clrRun s' := by
    rw [clrRun, clrRun, hv, hlen, hbuf, hres, hpend, hans]
  rw [exec_eq_bodyOf, exec_eq_bodyOf, bodyOf, bodyOf, genRun, genRun, hclr]

theorem grid_of_genRun_completed {cfg : Config} {s t : State} (h : genRun cfg s = .completed t) :
    t.g = genGrid cfg s.clen.val s.cbuf := by
  rcases genRun_cases cfg s with ⟨-, hrun⟩ | ⟨-, -, hrun⟩ | ⟨-, -, hrun⟩
  case inr.inr => rw [← Run.completed.inj (hrun.symm.trans h)]
  all_goals cases hrun.symm.trans h

/-- Settles O48: a reserved cell of either final grid is S2's, and S2 depends on the format word only. -/
theorem reservedCellsIgnoreTheContent : Obligations.ReservedCellsIgnoreTheContent := by
  intro cfg cfg' s s' t t' hword h h' r c hr hc hres
  have hcell := get_genGrid_reserved cfg s.clen.val s.cbuf hr hc hres
  have hcell' := get_genGrid_reserved cfg' s'.clen.val s'.cbuf hr hc hres
  rw [grid_of_genRun_completed h, grid_of_genRun_completed h', hcell, hcell', hword]
  exact ⟨rfl, rfl⟩

end Sys2Proof.Machine
end

section
/-! PROOFS of the family 60_exceptions: what each raise does (R132 to R135), and when ERR[2] is set (R131). -/

namespace Sys2Proof.Machine

/-- Settles O18: the equations of `raise`, with the abort written out. -/
theorem raiseEffects : Obligations.RaiseEffects := fun s =>
  ⟨raise_invalidInput s, raise_capacityExceeded s, raise_illegalCommand s⟩

/-- A command that is not misused sets ERR[2] in none of the ways it can end. -/
theorem Effect.ill_of_not_misused {i : Instr} {s t : State} (h : Effect i s t) (hmis : misused i s = false)
    (hset : t.err.ill = true) : s.err.ill = true := by
  cases h
  case illegal h => cases hmis.symm.trans h
  case clr | gen | genNull | genOver => cases hset
  all_goals exact hset

/-- Settles O19: the port's raise for a word, the raise of every misuse, and no other way to set ERR[2]. -/
theorem illegalCommandExactCases : Obligations.IllegalCommandExactCases :=
  ⟨fun _ s _ he => runWord_of_error s he, fun _ _ => exec_of_misused,
    fun _ _ _ hmis h => (effect_of_exec h).ill_of_not_misused hmis⟩

end Sys2Proof.Machine
end

section
/-! PROOFS of the family 70_reset_and_hazards: waiting and delivery (R151), the reset input (R150), and that a change of
content after ENCODE stays out of the current run (R154). -/

namespace Sys2Proof.Machine

/-! ## A change of content after ENCODE -/

/-- The state with another content in place of its own, as content commands in the middle of a run may leave it (R154). -/
def State.withContent (cv : Bool) (cl : Fin 19) (cb : Vector Byte 17) (s : State) : State :=
  { s with cvalid := cv, clen := cl, cbuf := cb }

/-- A `require` hands a change of content on to its body, and raises alike before and after it. -/
theorem requireStage_withContent (k : Stage) (s : State) {body : State → Run} (cv : Bool) (cl : Fin 19)
    (cb : Vector Byte 17) (hbody : body (s.withContent cv cl cb) = (body s).map (State.withContent cv cl cb)) :
    requireStage k (s.withContent cv cl cb) body = (requireStage k s body).map (State.withContent cv cl cb) := by
  by_cases hk : s.stg = k
  · rw [requireStage_of_eq body hk, ← hbody, requireStage_of_eq body (s := s.withContent cv cl cb) hk]
  · rw [requireStage_of_ne body hk, requireStage_of_ne body (s := s.withContent cv cl cb) hk]
    rfl

/-- The three step commands after ENCODE do not read the content (R154). -/
theorem bodyOf_withContent {i : Instr} (hi : i ∈ [Instr.ecccat, .place, .mask]) (s : State) (cv : Bool) (cl : Fin 19)
    (cb : Vector Byte 17) : bodyOf i (s.withContent cv cl cb) = (bodyOf i s).map (State.withContent cv cl cb) := by
  fin_cases hi
  all_goals
    simp only [bodyOf, ecccatRun, placeRun, maskRun]
    exact requireStage_withContent _ s cv cl cb (by simp only [State.withContent, Run.map])

/-- Settles O49: the bodies end alike but for the content, so the outcomes do. -/
theorem laterContentDoesNotReachTheGrid : Obligations.LaterContentDoesNotReachTheGrid := by
  intro i s t cv cl cb hi h
  rw [exec_eq_bodyOf] at h
  exact (exec_eq_bodyOf i _).trans
    ((congrArg Run.outcome (bodyOf_withContent hi s cv cl cb)).trans (outcome_map_of_next _ h))

/-! ## Waiting and delivery -/

theorem step_of_nothing_pending {s : State} (h : s.pending = []) : step s = .next s := by
  rw [step, h]

/-- A delivered word runs in the next step, with the accesses behind it still pending (log 1). -/
theorem step_withFetchWord (s : State) (w : Word) : step (s.withFetchWord 32 w.toNat) = runWord w s := by
  have hword : BitVec.ofNat 32 (w.toNat % 2 ^ 32) = w := by
    rw [Nat.mod_eq_of_lt w.isLt, BitVec.ofNat_toNat, BitVec.setWidth_eq]
  rw [withFetchWord_eq, hword, step_of_pending rfl, serve_cmdWrite]

theorem step_reset {s : State} {rest : List PortEvent} (h : s.pending = .reset :: rest) :
    step s = .next (resetEngine { s with pending := rest }) := by
  rw [step_of_pending h, serve]

/-- Settles O9: what a step does with nothing, with a delivered word and with a reset event in front. -/
theorem nothingRunsUntilAWordIsWritten : Obligations.NothingRunsUntilAWordIsWritten :=
  ⟨fun _ => step_of_nothing_pending, step_withFetchWord, fun _ _ => step_reset⟩

/-! ## The registers after reset -/

theorem wordOfBits_false {f : Nat → Bool} (h : ∀ k, f k = false) : wordOfBits f = 0#32 := by
  refine BitVec.eq_of_getLsbD_eq fun k hk => ?_
  rw [getLsbD_wordOfBits f hk, h, BitVec.getLsbD_zero]

/-- STATUS and RES show none of the two lists that a reset keeps, so they are closed words after it. -/
theorem statusWord_resetEngine (s : State) : statusWord (resetEngine s) = 0#32 := by
  have hclosed : statusWord State.reset = 0#32 := by decide
  exact hclosed

theorem resWord_resetEngine (s : State) : resWord (resetEngine s) = 0#32 := by
  have hclosed : resWord State.reset = 0#32 := by decide
  exact hclosed

theorem growWord_light (r : Nat) : growWord Grid.light r = 0#32 := wordOfBits_false fun _ => Grid.get_light _ _

theorem bswWord_zeroStream (k : Nat) : bswWord zeroStream k = 0#32 := wordOfBits_false fun _ => streamBit_zeroStream _

/-- Every readable register but FMT reads 0 after reset (R150). -/
theorem readRegister_resetEngine {cfg : Config} {s : State} {n : Nat} {v : Word}
    (h : readRegister cfg (resetEngine s) n = some v) (hfmt : n ≠ 0x03) : v = 0#32 := by
  unfold readRegister at h
  split_ifs at h
  all_goals obtain rfl := Option.some.inj h
  · rfl
  · exact statusWord_resetEngine s
  · exact resWord_resetEngine s
  · exact growWord_light _
  · exact bswWord_zeroStream _

/-- Settles O17: each piece has its value of R150, and so the registers that show the pieces read 0. -/
theorem resetSetsEveryPiece : Obligations.ResetSetsEveryPiece := fun _ _ h =>
  ⟨_, step_reset h, Grid.get_light, streamBit_zeroStream, rfl, contentByte_zeroContent, rfl, rfl, rfl, rfl, rfl,
    fun _ _ => readRegister_resetEngine, rfl⟩

end Sys2Proof.Machine
end
